-- ==== Sys2Proof/Word.lean ====
section
/-! DEFINITION. The word types of the engine (00_scope.md R8, R9; 30_encoding.md R90, R91). Bit 0 is the
least significant bit of every one of them (R17), and arithmetic on them wraps at their width. -/

namespace Sys2Proof

/-- An 8-bit unsigned value: a general register, a timer, a byte of memory (R8, R14, R60). -/
abbrev Byte := BitVec 8

/-- A 16-bit instruction word (R90). -/
abbrev Word := BitVec 16

/-- A 16-bit address register: pc, I or a return address (R9, R10). An address may exceed 0xFFF. -/
abbrev Addr := BitVec 16

/-- A 4-bit operand field: a register index (R91, R93), a row count (R92) or a hex key (R14). -/
abbrev Nibble := BitVec 4

/-- The 12-bit address field nnn (R91, R92). -/
abbrev Addr12 := BitVec 12

end Sys2Proof
end

