-- ==== Sys2Proof/Config.lean ====
section
/-! DEFINITION. What is fixed for this hardware (00_scope.md R7 to R16) and the free values of the model: the
answers of the keyboard and of the random source (10_state.md R41), which nothing constrains. -/

namespace Sys2Proof

/-- `MEM_SIZE` (R7). -/
def Config.memSize : Nat := 4096

/-- `PROGRAM_BASE`, where program bytes are loaded and pc starts (R13). -/
def Config.programBase : Nat := 0x200

/-- `MAX_IMAGE = MEM_SIZE - PROGRAM_BASE` (R13). -/
def Config.maxImage : Nat := 3584

/-- `FONT_BASE` (R12). -/
def Config.fontBase : Nat := 0x050

/-- `FONT_GLYPH_BYTES` (R12). -/
def Config.glyphBytes : Nat := 5

/-- `FONT_GLYPHS * FONT_GLYPH_BYTES`: the font's size in bytes (R12, R66). -/
def Config.fontSize : Nat := 80

/-- Glyphs 0 to 7 of `FONT` (R66). -/
def Config.fontLow : List Byte :=
  [0xF0, 0x90, 0x90, 0x90, 0xF0] ++ [0x20, 0x60, 0x20, 0x20, 0x70] ++
  [0xF0, 0x10, 0xF0, 0x80, 0xF0] ++ [0xF0, 0x10, 0xF0, 0x10, 0xF0] ++
  [0x90, 0x90, 0xF0, 0x10, 0x10] ++ [0xF0, 0x80, 0xF0, 0x10, 0xF0] ++
  [0xF0, 0x80, 0xF0, 0x90, 0xF0] ++ [0xF0, 0x10, 0x20, 0x40, 0x40]

/-- Glyphs 8 to F of `FONT` (R66). -/
def Config.fontHigh : List Byte :=
  [0xF0, 0x90, 0xF0, 0x90, 0xF0] ++ [0xF0, 0x90, 0xF0, 0x10, 0xF0] ++
  [0xF0, 0x90, 0xF0, 0x90, 0x90] ++ [0xE0, 0x90, 0xE0, 0x90, 0xE0] ++
  [0xF0, 0x80, 0x80, 0x80, 0xF0] ++ [0xE0, 0x90, 0x90, 0x90, 0xE0] ++
  [0xF0, 0x80, 0xF0, 0x80, 0xF0] ++ [0xF0, 0x80, 0xF0, 0x80, 0x80]

/-- The default of the parameter `FONT`, the conventional table of R66.
PRESUMED by the spec (general knowledge, D32); unsafe: log 10. -/
def Config.font : List Byte := Config.fontLow ++ Config.fontHigh

/-- A value of the parameter `FONT`: the 80 bytes of 16 glyphs (R12). -/
abbrev Font := Vector Byte 80

/-- The named parameters of the model: `STACK_DEPTH` (R10), `SHIFT_USES_VY` (R15), `LOAD_STORE_INCREMENTS_I` (R16) and
`FONT` (R12). Instructions read the first three, and reset writes the fourth into memory. -/
structure Params where
  stackDepth : Nat
  shiftUsesVy : Bool
  loadStoreIncrementsI : Bool
  font : Font
  deriving DecidableEq, Repr

/-- The parameters at the spec's defaults, "this hardware's value" (92_eei_decisions.md D2, D3, D17, D32).
DESIGN CHOICE of the spec; unsafe if the block differs: logs 7, 8, 9 and 10. -/
def Config.params : Params :=
  { stackDepth := 16, shiftUsesVy := false, loadStoreIncrementsI := false, font := ⟨Config.font.toArray, rfl⟩ }

/-- `KeyDown(k)`, the answer to the engine's `q`-th query when that query asks for key `k`. A FREE VALUE (R41,
D31; log 1): it has no body, so a theorem holds whatever the keyboard answers. -/
opaque Config.keyDown (q : Nat) (k : Nibble) : Bool

/-- `PollKey()`, the answer to the engine's `q`-th query when that query polls: none, or a key. A FREE VALUE
(R41, D31; log 1). -/
opaque Config.pollKey (q : Nat) : Option Nibble

/-- `RandByte()`, the answer to the engine's `q`-th query when that query draws a byte. A FREE VALUE (R41, D14;
log 1). -/
opaque Config.randByte (q : Nat) : Byte

end Sys2Proof
end

