-- ==== Sys2Proof/Syntax.lean ====
section
/-! DEFINITION. The 34 instructions of the opcode map (30_encoding.md R100), one constructor per row, in the
table's order. Operand fields have exactly the widths of R91, so every term of `Instr` is an instruction. -/

namespace Sys2Proof

/-- An instruction of R100. `x`, `y` name general registers, `n` is a row count, `nn` an 8-bit immediate,
`nnn` a 12-bit address (R91 to R93). -/
inductive Instr where
  /-- 00E0, clear the display (R180). -/
  | cls
  /-- 00EE, return (R120). -/
  | ret
  /-- 1nnn, jump (R121). -/
  | jp (nnn : Addr12)
  /-- 2nnn, call (R122). -/
  | call (nnn : Addr12)
  /-- 3xnn, skip if Vx = nn (R123). -/
  | seImm (x : Nibble) (nn : Byte)
  /-- 4xnn, skip if Vx differs from nn (R124). -/
  | sneImm (x : Nibble) (nn : Byte)
  /-- 5xy0, skip if Vx = Vy (R125). -/
  | seReg (x y : Nibble)
  /-- 6xnn, load immediate (R150). -/
  | ldImm (x : Nibble) (nn : Byte)
  /-- 7xnn, add immediate, no flag (R151). -/
  | addImm (x : Nibble) (nn : Byte)
  /-- 8xy0, register copy (R152). -/
  | ldReg (x y : Nibble)
  /-- 8xy1, bitwise OR (R153). -/
  | orReg (x y : Nibble)
  /-- 8xy2, bitwise AND (R154). -/
  | andReg (x y : Nibble)
  /-- 8xy3, bitwise exclusive OR (R155). -/
  | xorReg (x y : Nibble)
  /-- 8xy4, add with carry out (R156). -/
  | addReg (x y : Nibble)
  /-- 8xy5, Vx - Vy (R157). -/
  | sub (x y : Nibble)
  /-- 8xy6, shift right by one (R158). -/
  | shr (x y : Nibble)
  /-- 8xy7, Vy - Vx (R159). -/
  | subn (x y : Nibble)
  /-- 8xyE, shift left by one (R160). -/
  | shl (x y : Nibble)
  /-- 9xy0, skip if Vx differs from Vy (R126). -/
  | sneReg (x y : Nibble)
  /-- Annn, load index (R200). -/
  | ldI (nnn : Addr12)
  /-- Bnnn, jump to nnn + V0 (R127). -/
  | jpV0 (nnn : Addr12)
  /-- Cxnn, random byte under a mask (R161). -/
  | rnd (x : Nibble) (nn : Byte)
  /-- Dxyn, draw an n-row sprite (R181). -/
  | drw (x y n : Nibble)
  /-- Ex9E, skip if key Vx is down (R220). -/
  | skp (x : Nibble)
  /-- ExA1, skip if key Vx is up (R221). -/
  | sknp (x : Nibble)
  /-- Fx07, read the delay timer (R222). -/
  | ldVxDt (x : Nibble)
  /-- Fx0A, wait for a key press (R223, R224). -/
  | ldVxK (x : Nibble)
  /-- Fx15, set the delay timer (R225). -/
  | ldDtVx (x : Nibble)
  /-- Fx18, set the sound timer (R226). -/
  | ldStVx (x : Nibble)
  /-- Fx1E, add register to index (R201). -/
  | addIVx (x : Nibble)
  /-- Fx29, point I at a font glyph (R202). -/
  | ldFVx (x : Nibble)
  /-- Fx33, store binary-coded decimal (R203). -/
  | ldBVx (x : Nibble)
  /-- Fx55, store V0 to Vx (R204). -/
  | ldMemVx (x : Nibble)
  /-- Fx65, load V0 to Vx (R205). -/
  | ldVxMem (x : Nibble)
  deriving DecidableEq, Repr

end Sys2Proof
end

