-- ==== Sys2Proof/Machine/State.lean ====
section
/-! DEFINITION. The engine's whole state as plain data (10_state.md, the record at the head of the file), the
reasons a step can stop, and the state after reset (70_reset_and_hazards.md R270). -/

namespace Sys2Proof.Machine

/-- The four fatal fault kinds (10_state.md R44, 60_exceptions.md R245 to R248). -/
inductive FaultKind where
  | outOfRangeAddress
  | invalidOpcode
  | stackUnderflow
  | stackOverflow
  deriving DecidableEq, Repr

/-- `{kind, pc_fetch, opcode, addr}` (R44). `pcFetch` is none for a fault of the program load, `opcode` is none for
a fault of the load or of a fetch, `addr` is the out-of-range address of an OutOfRangeAddress and none otherwise. -/
structure FaultRecord where
  kind : FaultKind
  pcFetch : Option Addr
  opcode : Option Word
  addr : Option Int
  deriving DecidableEq, Repr

/-- `Running` or `Halted(rec)` (R43). -/
inductive Status where
  | running
  | halted (record : FaultRecord)
  deriving DecidableEq, Repr

/-- What a pseudocode's `raise E(info)` raises (00_scope.md R19). -/
inductive Raise where
  /-- A memory access outside 0..4095, with its address (R245). -/
  | outOfRangeAddress (addr : Int)
  /-- The fetched word decodes to `Invalid` (R246). -/
  | invalidOpcode
  /-- 00EE on an empty stack (R247). -/
  | stackUnderflow
  /-- 2nnn with `STACK_DEPTH` entries on the stack (R248). -/
  | stackOverflow
  deriving DecidableEq, Repr

/-- Memory as a list of (address, byte) pairs in one canonical form: addresses strictly rising, and no entry equal
to what an unlisted address reads as (`Memory.wf` in Machine/Ops.lean; log 13). -/
abbrev Memory := List Host.Cell

/-- The sixteen general registers (R20). -/
abbrev Regs := Vector Byte 16

/-- The 64x32 grid, `fb[x][y]`: 64 columns of 32 cells, `true` is ON (R42). -/
abbrev Grid := Vector (Vector Bool 32) 64

/-- The state of 10_state.md. `draws` is the model's own field, not the spec's (log 2). -/
structure State where
  /-- V0 to VF (R20). -/
  V : Regs
  /-- The program counter (R23). -/
  pc : Addr
  /-- The index register (R28). -/
  I : Addr
  /-- The return stack, its top entry first (R29; log 16). -/
  stack : List Addr
  /-- The delay timer (R32). -/
  DT : Byte
  /-- The sound timer (R33). -/
  ST : Byte
  /-- The 4096 bytes of memory (R40, R60). -/
  mem : Memory
  /-- The display grid (R42). -/
  fb : Grid
  /-- Running, or Halted with its fault record (R43). -/
  status : Status
  /-- How many oracle queries have been answered, the argument of the free values of Config.lean (R41). -/
  draws : Nat
  deriving DecidableEq, Repr

/-- Why a step stops. -/
inductive Fault where
  /-- Raised by `step` alone, in a state whose status is `Halted(rec)`: "every later `step()` changes nothing and
  returns `Fault(rec)` with the same record" (60_exceptions.md R244). Safe: it is the spec's own answer (log 3). -/
  | halted (record : FaultRecord)
  deriving DecidableEq, Repr

/-- Why the model would have no meaning for an instruction. -/
inductive Refusal where
  /-- Raised by an arm of `exec` whose instruction has no meaning yet. Safe. No arm raises it now. -/
  | notModelled (mnemonic : String)
  deriving DecidableEq, Repr

/-- What a meaning answers. -/
abbrev Result := Host.Outcome State Fault Refusal

/-- The state right after reset, before the program load (R270). Nothing is listed in memory: every address reads
as R67 says. Every value is the spec's but `draws` (log 2). -/
def State.reset : State :=
  { V := Vector.replicate 16 0
    pc := 0x200
    I := 0
    stack := []
    DT := 0
    ST := 0
    mem := []
    fb := Vector.replicate 64 (Vector.replicate 32 false)
    status := .running
    draws := 0 }

end Sys2Proof.Machine
end

