-- ==== Sys2Proof/Machine/Ops.lean ====
section
/-! DEFINITION. The named operations over registers, memory, display and stack (00_scope.md R19, 20_memory.md R60 to
R72, 10_state.md R29 to R51), taking a fault (60_exceptions.md R243, R252), and fetch (R241). There is no return
from a fault (R253): only a new session leaves Halted (R244, R270). -/

namespace Sys2Proof.Machine

/-! ### Registers: one writer per field -/

/-- `V[x]` (R19, R93). -/
def State.getV (s : State) (x : Nibble) : Byte := s.V[x.toNat]'x.isLt

/-- `V[x] <- b` (R19). -/
def State.setV (s : State) (x : Nibble) (b : Byte) : State := { s with V := s.V.set x.toNat b x.isLt }

/-- Replace the whole register file (Fx65). -/
def State.setRegs (s : State) (V : Regs) : State := { s with V := V }

/-- `pc <- a`. -/
def State.setPc (s : State) (a : Addr) : State := { s with pc := a }

/-- `I <- a`. -/
def State.setI (s : State) (a : Addr) : State := { s with I := a }

/-- Replace the return stack. -/
def State.setStack (s : State) (st : List Addr) : State := { s with stack := st }

/-- `DT <- b`. -/
def State.setDT (s : State) (b : Byte) : State := { s with DT := b }

/-- `ST <- b`. -/
def State.setST (s : State) (b : Byte) : State := { s with ST := b }

/-- Replace the memory. -/
def State.setMem (s : State) (m : Memory) : State := { s with mem := m }

/-- Replace the display grid. -/
def State.setFb (s : State) (g : Grid) : State := { s with fb := g }

/-- `status <- st`. -/
def State.setStatus (s : State) (st : Status) : State := { s with status := st }

/-- An oracle query has been answered: the next one is a fresh free value (R41; log 1). -/
def State.countDraw (s : State) : State := { s with draws := s.draws + 1 }

/-- "advance the program counter by 2 *before* execution", mod 2^16 (R24, R26). -/
def State.advance (s : State) : State := s.setPc (s.pc + 2)

/-- `if c: pc <- (pc + 2) mod 2^16`, the skip of R123 to R126, R220 and R221. -/
def State.skipIf (s : State) (c : Bool) : State := s.setPc (if c then s.pc + 2 else s.pc)

/-- `V[k] <- bytes[0]; V[k+1] <- bytes[1]; ...`, the register side of Fx65 (R205). -/
def putRegs (k : Nat) : List Byte → Regs → Regs
  | [], V => V
  | b :: bs, V => putRegs (k + 1) bs (V.setIfInBounds k b)

/-- `V[0], ..., V[x]` in order, the register side of Fx55 (R204). -/
def regsUpTo (V : Regs) (x : Nibble) : List Byte := V.toList.take (x.toNat + 1)

/-! ### Memory -/

/-- What an address holds after reset and before the load with `FONT` at its default: the font at 0x050 to 0x09F,
0x00 elsewhere (R67; a reset with another `FONT`, State.resetWith, lists the bytes that differ). It is
what an address that memory does not list reads as (log 13). -/
def Memory.unlisted (a : Nat) : Byte :=
  if Config.fontBase ≤ a ∧ a < Config.fontBase + Config.fontSize then Config.font.getD (a - Config.fontBase) 0 else 0

/-- `mem[a]`. -/
def Memory.get : Memory → Nat → Byte
  | [], a => Memory.unlisted a
  | (b, v) :: m, a => if b = a then v else Memory.get m a

/-- The memory with no entry for address `a`: it reads as its reset contents. -/
def Memory.erase (m : Memory) (a : Nat) : Memory := m.filter fun c => c.1 != a

/-- The memory with the entry `(a, v)` at its place in the rising order. -/
def Memory.insert : Memory → Nat → Byte → Memory
  | [], a, v => [(a, v)]
  | (b, u) :: m, a, v => if a < b then (a, v) :: (b, u) :: m else (b, u) :: Memory.insert m a v

/-- `mem[a] <- v`, keeping the canonical form: an address that is to read as its reset contents is not listed. -/
def Memory.put (m : Memory) (a : Nat) (v : Byte) : Memory :=
  if v = Memory.unlisted a then Memory.erase m a else Memory.insert (Memory.erase m a) a v

/-- The canonical form: addresses strictly rising and in range, and no entry equal to what its address reads as
when unlisted. -/
abbrev Memory.wf (m : Memory) : Prop :=
  m.Pairwise (fun p q => p.1 < q.1) ∧ ∀ c ∈ m, c.1 < Config.memSize ∧ c.2 ≠ Memory.unlisted c.1

/-- `size()` (R65). -/
def memSize (_ : Memory) : Nat := Config.memSize

/-- `0 <= addr <= 4095` (R60). -/
def inRange (a : Int) : Bool := decide (0 ≤ a) && decide (a ≤ 4095)

/-- `MemRead(addr, 1)`, the controller's `read` (R61). Addresses are unbounded integers (R71). -/
def memRead (m : Memory) (a : Int) : Except Raise Byte :=
  if inRange a then .ok (Memory.get m a.toNat) else .error (.outOfRangeAddress a)

/-- `MemWrite(addr, 1, v)`, the controller's `write`: the value is masked to 8 bits, never rejected for width (R62). -/
def memWrite (m : Memory) (a : Int) (v : Nat) : Except Raise Memory :=
  if inRange a then .ok (Memory.put m a.toNat (BitVec.ofNat 8 v)) else .error (.outOfRangeAddress a)

/-- The lowest out-of-range address among `start, start + 1, ...`, one per byte (R64). -/
def firstOutOfRange (start : Int) : List Nat → Option Int
  | [] => none
  | _ :: vs => if inRange start then firstOutOfRange (start + 1) vs else some start

/-- `for k: mem[start + k] <- bytes[k] & 0xFF` (R64). -/
def putAll (m : Memory) (start : Nat) : List Nat → Memory
  | [] => m
  | v :: vs => putAll (Memory.put m start (BitVec.ofNat 8 v)) (start + 1) vs

/-- `bulk_write(start, bytes)`, all or nothing (R64). -/
def bulkWrite (m : Memory) (start : Int) (vs : List Nat) : Except Raise Memory :=
  match firstOutOfRange start vs with
  | some a => .error (.outOfRangeAddress a)
  | none => .ok (putAll m start.toNat vs)

/-- `MemRead(a, 1), MemRead(a + 1, 1), ...`, `n` reads in ascending order (R72, R74). -/
def loadBytes (m : Memory) (a : Nat) : Nat → Except Raise (List Byte)
  | 0 => .ok []
  | n + 1 =>
    match memRead m a with
    | .error e => .error e
    | .ok b =>
      match loadBytes m (a + 1) n with
      | .error e => .error e
      | .ok bs => .ok (b :: bs)

/-- `MemWrite(a, 1, bs[0]), MemWrite(a + 1, 1, bs[1]), ...` in ascending order (R72, R74). -/
def storeBytes (m : Memory) (a : Nat) : List Byte → Except Raise Memory
  | [] => .ok m
  | b :: bs =>
    match memWrite m a b.toNat with
    | .error e => .error e
    | .ok m' => storeBytes m' (a + 1) bs

/-- `Fetch16(a)`: big-endian, the byte at `a` first (R72). -/
def fetch16 (m : Memory) (a : Nat) : Except Raise Word :=
  match memRead m a with
  | .error e => .error e
  | .ok hi =>
    match memRead m (a + 1 : Nat) with
    | .error e => .error e
    | .ok lo => .ok (joinBytes hi lo)

/-- The fetch of a step, at pc (R241). -/
def fetch (s : State) : Except Raise Word := fetch16 s.mem s.pc.toNat

/-- `s` with the word `w` stored at pc, high byte first; where pc is above 0xFFE there is no room for a word and
nothing is stored (log 15). -/
def placeWord (s : State) (w : Word) : State :=
  if s.pc.toNat + 1 ≤ 4095 then
    s.setMem (Memory.put (Memory.put s.mem s.pc.toNat (highByte w)) (s.pc.toNat + 1) (lowByte w))
  else s

/-! ### Display (10_state.md R51). Coordinates are in the grid by type (log 26) -/

/-- `FbGet(x, y)`. -/
def fbGet (g : Grid) (x : Fin 64) (y : Fin 32) : Bool := (g[x.val]'x.isLt)[y.val]'y.isLt

/-- `FbSet(x, y, b)`. -/
def fbSet (g : Grid) (x : Fin 64) (y : Fin 32) (b : Bool) : Grid :=
  g.set x.val ((g[x.val]'x.isLt).set y.val b y.isLt) x.isLt

/-- `FbToggle(x, y)`: flips the cell and gives back the grid and the cell's new value. -/
def fbToggle (g : Grid) (x : Fin 64) (y : Fin 32) : Grid × Bool :=
  (fbSet g x y (!fbGet g x y), !fbGet g x y)

/-- `FbClear()`: every cell OFF. -/
def fbClear : Grid := Vector.replicate 64 (Vector.replicate 32 false)

/-! ### Return stack (R29, R30) -/

/-- `Push(v)` on a stack of at most `depth` entries. -/
def push (depth : Nat) (st : List Addr) (v : Addr) : Except Raise (List Addr) :=
  if st.length < depth then .ok (v :: st) else .error .stackOverflow

/-- `Pop()`: the top entry and the rest. -/
def pop : List Addr → Except Raise (Addr × List Addr)
  | [] => .error .stackUnderflow
  | v :: st => .ok (v, st)

/-! ### Taking a fault -/

/-- The kind of a raise (R245 to R248). -/
def Raise.kind : Raise → FaultKind
  | .outOfRangeAddress _ => .outOfRangeAddress
  | .invalidOpcode => .invalidOpcode
  | .stackUnderflow => .stackUnderflow
  | .stackOverflow => .stackOverflow

/-- The address a raise reports (R44). -/
def Raise.addr : Raise → Option Int
  | .outOfRangeAddress a => some a
  | .invalidOpcode => none
  | .stackUnderflow => none
  | .stackOverflow => none

/-- `cause code` (R44), the spec's own numbering. -/
def FaultKind.code : FaultKind → Nat
  | .outOfRangeAddress => 1
  | .invalidOpcode => 2
  | .stackUnderflow => 3
  | .stackOverflow => 4

/-- `record(E, a, w or none, info)` (R240, R44). -/
def faultRecord (e : Raise) (pcFetch : Option Addr) (opcode : Option Word) : FaultRecord :=
  { kind := e.kind, pcFetch := pcFetch, opcode := opcode, addr := e.addr }

/-- Taking a fault: `State <- s0; status <- Halted(record(E, a, w or none, info))`, where `s0` is the state the step
began in and `a` its pc. It saves the record into `status` and nothing else (R240, R243, R252). -/
def takeFault (s0 : State) (e : Raise) (opcode : Option Word) : State :=
  s0.setStatus (.halted (faultRecord e (some s0.pc) opcode))

/-- The end of `Execute(i)` from the state `s0` the step began in: commit every write, or take the fault that was
raised, with the instruction's word in the record (R240, R243; logs 3 and 4). -/
def commit (i : Instr) (s0 : State) (r : Except Raise State) : Result :=
  .next (match r with
    | .ok t => t
    | .error e => takeFault s0 e (some (encode i)))

end Sys2Proof.Machine
end

