-- ==== Sys2Proof/Machine/Operands.lean ====
section
/-! DEFINITION. Operand forms: immediates, effective addresses, key and digit selection, the shift source, the
decimal digits of BCD, the parameters and the oracle queries. -/

namespace Sys2Proof.Machine

/-- The parameters of this machine (00_scope.md R10, R12, R15, R16; logs 7 to 10). -/
def params : Params := Config.params

/-- `zext_16(nnn)` (30_encoding.md R92). -/
def zext16 (nnn : Addr12) : Addr := nnn.setWidth 16

/-- A byte widened to an address, as `I + V[x]` and `nnn + V[0]` add it (R18). -/
def byteAddr (b : Byte) : Addr := b.setWidth 16

/-- `V[x] & 0x0F`: the low nibble selects the key or the digit (R202, R220, R221). -/
def lowNibble (b : Byte) : Nibble := b.extractLsb' 0 4

/-- `FONT_BASE + 5 * d` (R66, R202). -/
def glyphAddr (d : Nibble) : Addr := BitVec.ofNat 16 (Config.fontBase + Config.glyphBytes * d.toNat)

/-- The first address of an access through I, as an unbounded integer (R71). -/
def baseAddr (s : State) : Nat := s.I.toNat

/-- `src <- (if SHIFT_USES_VY then b else a)` (R158, R160). -/
def shiftSource (p : Params) (a b : Byte) : Byte := if p.shiftUsesVy then b else a

/-- `v // 100, (v // 10) % 10, v % 10` (R203). -/
def bcdDigits (v : Byte) : List Byte :=
  [BitVec.ofNat 8 (v.toNat / 100), BitVec.ofNat 8 (v.toNat / 10 % 10), BitVec.ofNat 8 (v.toNat % 10)]

/-- `if LOAD_STORE_INCREMENTS_I: I <- (I + x + 1) mod 2^16` (R204, R205). -/
def bumpI (p : Params) (x : Nibble) (s : State) : State :=
  if p.loadStoreIncrementsI then s.setI (s.I + x.setWidth 16 + 1) else s

/-- The origin column `V[x] mod 64` (R181). -/
def originX (b : Byte) : Nat := b.toNat % 64

/-- The origin row `V[y] mod 32` (R181). -/
def originY (b : Byte) : Nat := b.toNat % 32

/-- `KeyDown(k)` asked in state `s`: a free value (R41; log 1). -/
def keyDown (s : State) (k : Nibble) : Bool := Config.keyDown s.draws k

/-- `PollKey()` asked in state `s`: a free value (R41; log 1). -/
def pollKey (s : State) : Option Nibble := Config.pollKey s.draws

/-- `RandByte()` asked in state `s`: a free value (R41; log 1). -/
def randByte (s : State) : Byte := Config.randByte s.draws

end Sys2Proof.Machine
end

