-- ==== Sys2Proof/Machine/Flags.lean ====
section
/-! DEFINITION. The flag computations: VF is the only flag (10_state.md R21, R37), and it is written last (R38). -/

namespace Sys2Proof.Machine

/-- The index of VF (R21). -/
def vf : Nibble := 0xF

/-- A flag as VF holds it: 1 or 0 (R156 to R160, R181). -/
def flagByte (f : Bool) : Byte := if f then 1 else 0

/-- Carry of `a + b`: the unbounded sum exceeds 255 (R156). -/
def carryOut (a b : Byte) : Bool := decide (255 < a.toNat + b.toNat)

/-- NOT borrow of `a - b`: 1 when a >= b (R157, R159). -/
def notBorrow (a b : Byte) : Bool := decide (b.toNat ≤ a.toNat)

/-- The bit shifted out on the right: bit 0 (R158). -/
def bitOutRight (b : Byte) : Bool := b.getLsbD 0

/-- The bit shifted out on the left: bit 7 (R160). -/
def bitOutLeft (b : Byte) : Bool := b.getLsbD 7

/-- `V[15] <- (if f then 1 else 0)`. -/
def State.setFlag (s : State) (f : Bool) : State := s.setV vf (flagByte f)

/-- `V[x] <- r; V[15] <- f`: the flag is the final value of VF when x = F (R38, R149). -/
def State.setVFlag (s : State) (x : Nibble) (r : Byte) (f : Bool) : State := (s.setV x r).setFlag f

end Sys2Proof.Machine
end

