-- ==== Sys2Proof/Machine/Alu.lean ====
section
/-! DEFINITION. Register loads and arithmetic-logic operations (41_load_alu.md R149 to R161). Sources are read from
the state the step began in, V[x] is written next and VF, as a flag, last (R149). -/

namespace Sys2Proof.Machine

/-- LD Vx, nn (R150). -/
def execLdImm (x : Nibble) (nn : Byte) (s : State) : Result := .next (s.advance.setV x nn)

/-- ADD Vx, nn (R151): mod 256, VF is not written as a carry. -/
def execAddImm (x : Nibble) (nn : Byte) (s : State) : Result :=
  .next (s.advance.setV x (s.getV x + nn))

/-- LD Vx, Vy (R152). -/
def execLdReg (x y : Nibble) (s : State) : Result := .next (s.advance.setV x (s.getV y))

/-- OR Vx, Vy (R153). VF is not reset (D19). -/
def execOrReg (x y : Nibble) (s : State) : Result := .next (s.advance.setV x (s.getV x ||| s.getV y))

/-- AND Vx, Vy (R154). VF is not reset (D19). -/
def execAndReg (x y : Nibble) (s : State) : Result := .next (s.advance.setV x (s.getV x &&& s.getV y))

/-- XOR Vx, Vy (R155). VF is not reset (D19). -/
def execXorReg (x y : Nibble) (s : State) : Result := .next (s.advance.setV x (s.getV x ^^^ s.getV y))

/-- ADD Vx, Vy (R156): the sum mod 256, then VF = carry. -/
def execAddReg (x y : Nibble) (s : State) : Result :=
  .next (s.advance.setVFlag x (s.getV x + s.getV y) (carryOut (s.getV x) (s.getV y)))

/-- SUB Vx, Vy (R157): Vx - Vy mod 256, then VF = NOT borrow. -/
def execSub (x y : Nibble) (s : State) : Result :=
  .next (s.advance.setVFlag x (s.getV x - s.getV y) (notBorrow (s.getV x) (s.getV y)))

/-- SHR Vx, Vy (R158) under the parameters `p`. -/
def shrWith (p : Params) (x y : Nibble) (s : State) : Result :=
  .next (s.advance.setVFlag x (shiftSource p (s.getV x) (s.getV y) >>> 1)
    (bitOutRight (shiftSource p (s.getV x) (s.getV y))))

/-- SHR Vx, Vy (R158) with this machine's `SHIFT_USES_VY`. -/
def execShr (x y : Nibble) (s : State) : Result := shrWith params x y s

/-- SUBN Vx, Vy (R159): Vy - Vx mod 256, then VF = NOT borrow. -/
def execSubn (x y : Nibble) (s : State) : Result :=
  .next (s.advance.setVFlag x (s.getV y - s.getV x) (notBorrow (s.getV y) (s.getV x)))

/-- SHL Vx, Vy (R160) under the parameters `p`. -/
def shlWith (p : Params) (x y : Nibble) (s : State) : Result :=
  .next (s.advance.setVFlag x (shiftSource p (s.getV x) (s.getV y) <<< 1)
    (bitOutLeft (shiftSource p (s.getV x) (s.getV y))))

/-- SHL Vx, Vy (R160) with this machine's `SHIFT_USES_VY`. -/
def execShl (x y : Nibble) (s : State) : Result := shlWith params x y s

/-- RND Vx, nn (R161): `r <- RandByte(); V[x] <- r & nn`, with r a free value (log 1). -/
def execRnd (x : Nibble) (nn : Byte) (s : State) : Result :=
  .next (s.advance.countDraw.setV x (randByte s &&& nn))

end Sys2Proof.Machine
end

