-- ==== Sys2Proof/Machine/Control.lean ====
section
/-! DEFINITION. Control transfer and skips (40_control_flow.md R120 to R127). In every meaning `s` is the state the
step began in and `s.advance` the state with pc already past the word (10_state.md R24). -/

namespace Sys2Proof.Machine

/-- RET (R120): `pc <- Pop()`. -/
def execRet (s : State) : Result :=
  commit .ret s
    (match pop s.advance.stack with
     | .error e => .error e
     | .ok (a, st) => .ok ((s.advance.setStack st).setPc a))

/-- JP nnn (R121): `pc <- zext_16(nnn)`. -/
def execJp (nnn : Addr12) (s : State) : Result := .next (s.advance.setPc (zext16 nnn))

/-- CALL nnn (R122) under the parameters `p`: `Push(pc); pc <- zext_16(nnn)`, where pc is the fetch address + 2. -/
def callWith (p : Params) (nnn : Addr12) (s : State) : Result :=
  commit (.call nnn) s
    (match push p.stackDepth s.advance.stack s.advance.pc with
     | .error e => .error e
     | .ok st => .ok ((s.advance.setStack st).setPc (zext16 nnn)))

/-- CALL nnn (R122) with this machine's `STACK_DEPTH`. -/
def execCall (nnn : Addr12) (s : State) : Result := callWith params nnn s

/-- SE Vx, nn (R123): `if V[x] == nn: skip`. -/
def execSeImm (x : Nibble) (nn : Byte) (s : State) : Result :=
  .next (s.advance.skipIf (s.getV x == nn))

/-- SNE Vx, nn (R124): `if V[x] != nn: skip`. -/
def execSneImm (x : Nibble) (nn : Byte) (s : State) : Result :=
  .next (s.advance.skipIf (s.getV x != nn))

/-- SE Vx, Vy (R125): `if V[x] == V[y]: skip`. -/
def execSeReg (x y : Nibble) (s : State) : Result :=
  .next (s.advance.skipIf (s.getV x == s.getV y))

/-- SNE Vx, Vy (R126): `if V[x] != V[y]: skip`. -/
def execSneReg (x y : Nibble) (s : State) : Result :=
  .next (s.advance.skipIf (s.getV x != s.getV y))

/-- JP V0, nnn (R127): `pc <- (zext_16(nnn) + V[0]) mod 2^16`, not truncated to 12 bits. -/
def execJpV0 (nnn : Addr12) (s : State) : Result :=
  .next (s.advance.setPc (zext16 nnn + byteAddr (s.getV 0)))

end Sys2Proof.Machine
end

