-- ==== Sys2Proof/Machine/Display.lean ====
section
/-! DEFINITION. Display instructions (42_display.md R180 to R182): clear, and the XOR sprite draw of R181 with its
origin wrap, pixel clipping and collision flag. -/

namespace Sys2Proof.Machine

/-- CLS (R180): every cell OFF; VF is unchanged. -/
def execCls (s : State) : Result := .next (s.advance.setFb fbClear)

/-- One sprite bit of value 1 at (px, py), with the grid and the collision flag so far (R181 step 3): in the grid,
collide if the cell is ON, then toggle it; outside the grid, "skipped, not wrapped". -/
def drawPixel (px py : Nat) (d : Grid × Bool) : Grid × Bool :=
  if h : px < 64 ∧ py < 32 then
    ((fbToggle d.1 ⟨px, h.1⟩ ⟨py, h.2⟩).1, d.2 || fbGet d.1 ⟨px, h.1⟩ ⟨py, h.2⟩)
  else d

/-- The columns `cs` of one sprite row, column `c` being bit `7 - c`, "most-significant bit first" (R181). -/
def drawCols (row : Byte) (x0 py : Nat) : List Nat → Grid × Bool → Grid × Bool
  | [], d => d
  | c :: cs, d => drawCols row x0 py cs (if row.getLsbD (7 - c) then drawPixel (x0 + c) py d else d)

/-- The rows of a sprite from grid row `py` on, each with its columns 0 to 7 (R181). -/
def drawRows (x0 py : Nat) : List Byte → Grid × Bool → Grid × Bool
  | [], d => d
  | row :: rows, d => drawRows x0 (py + 1) rows (drawCols row x0 py [0, 1, 2, 3, 4, 5, 6, 7] d)

/-- DRW Vx, Vy, n (R181): read the n row bytes at I, I + 1, ..., then draw them from the origin
(V[x] mod 64, V[y] mod 32) with the flag cleared, then write VF. I is not changed. -/
def execDrw (x y n : Nibble) (s : State) : Result :=
  commit (.drw x y n) s
    (match loadBytes s.mem (baseAddr s) n.toNat with
     | .error e => .error e
     | .ok rows =>
       .ok ((s.advance.setFb (drawRows (originX (s.getV x)) (originY (s.getV y)) rows (s.fb, false)).1).setFlag
         (drawRows (originX (s.getV x)) (originY (s.getV y)) rows (s.fb, false)).2))

end Sys2Proof.Machine
end

