-- ==== Sys2Proof/Machine/Index.lean ====
section
/-! DEFINITION. Index register and memory transfer instructions (43_index_memory.md R200 to R205). The effective
address I + k is an unbounded integer, checked against 0..0xFFF (20_memory.md R71). -/

namespace Sys2Proof.Machine

/-- LD I, nnn (R200). -/
def execLdI (nnn : Addr12) (s : State) : Result := .next (s.advance.setI (zext16 nnn))

/-- ADD I, Vx (R201): mod 2^16, VF is not set (D18). -/
def execAddIVx (x : Nibble) (s : State) : Result := .next (s.advance.setI (s.I + byteAddr (s.getV x)))

/-- LD F, Vx (R202): the glyph of the low nibble of Vx. -/
def execLdFVx (x : Nibble) (s : State) : Result := .next (s.advance.setI (glyphAddr (lowNibble (s.getV x))))

/-- LD B, Vx (R203): hundreds, tens and ones of Vx to I, I + 1, I + 2. -/
def execLdBVx (x : Nibble) (s : State) : Result :=
  commit (.ldBVx x) s
    (match storeBytes s.mem (baseAddr s) (bcdDigits (s.getV x)) with
     | .error e => .error e
     | .ok m => .ok (s.advance.setMem m))

/-- LD [I], Vx (R204) under the parameters `p`: V0 to Vx to I, ..., I + x. -/
def ldMemVxWith (p : Params) (x : Nibble) (s : State) : Result :=
  commit (.ldMemVx x) s
    (match storeBytes s.mem (baseAddr s) (regsUpTo s.V x) with
     | .error e => .error e
     | .ok m => .ok (bumpI p x (s.advance.setMem m)))

/-- LD [I], Vx (R204) with this machine's `LOAD_STORE_INCREMENTS_I`. -/
def execLdMemVx (x : Nibble) (s : State) : Result := ldMemVxWith params x s

/-- LD Vx, [I] (R205) under the parameters `p`: I, ..., I + x to V0 to Vx. -/
def ldVxMemWith (p : Params) (x : Nibble) (s : State) : Result :=
  commit (.ldVxMem x) s
    (match loadBytes s.mem (baseAddr s) (x.toNat + 1) with
     | .error e => .error e
     | .ok bs => .ok (bumpI p x (s.advance.setRegs (putRegs 0 bs s.V))))

/-- LD Vx, [I] (R205) with this machine's `LOAD_STORE_INCREMENTS_I`. -/
def execLdVxMem (x : Nibble) (s : State) : Result := ldVxMemWith params x s

end Sys2Proof.Machine
end

