-- ==== Sys2Proof/Machine/Keys.lean ====
section
/-! DEFINITION. Keyboard and timer instructions (44_keys_timers.md R220 to R226). The keyboard's answers are free
values, one per query (10_state.md R41; log 1). -/

namespace Sys2Proof.Machine

/-- SKP Vx (R220): `if KeyDown(V[x] & 0x0F): skip`. -/
def execSkp (x : Nibble) (s : State) : Result :=
  .next (s.advance.countDraw.skipIf (keyDown s (lowNibble (s.getV x))))

/-- SKNP Vx (R221): `if not KeyDown(V[x] & 0x0F): skip`. -/
def execSknp (x : Nibble) (s : State) : Result :=
  .next (s.advance.countDraw.skipIf (!keyDown s (lowNibble (s.getV x))))

/-- LD Vx, DT (R222). -/
def execLdVxDt (x : Nibble) (s : State) : Result := .next (s.advance.setV x s.DT)

/-- The two ends of Fx0A after its poll, from the state with pc past the word (R223): a key is stored in V[x]; with
none, `pc <- (pc - 2) mod 2^16` and the same word runs again at the next step (R224). -/
def waitKey (x : Nibble) (k : Option Nibble) (t : State) : State :=
  match k with
  | some key => t.setV x (key.setWidth 8)
  | none => t.setPc (t.pc - 2)

/-- LD Vx, K (R223, R224). -/
def execLdVxK (x : Nibble) (s : State) : Result := .next (waitKey x (pollKey s) s.advance.countDraw)

/-- LD DT, Vx (R225). -/
def execLdDtVx (x : Nibble) (s : State) : Result := .next (s.advance.setDT (s.getV x))

/-- LD ST, Vx (R226). -/
def execLdStVx (x : Nibble) (s : State) : Result := .next (s.advance.setST (s.getV x))

end Sys2Proof.Machine
end

