-- ==== Sys2Proof/Machine/Step.lean ====
section
/-! DEFINITION. The step of 60_exceptions.md R240: fetch, decode, execute, one instruction per call. -/

namespace Sys2Proof.Machine

/-- `step()` (R240). In `Halted(rec)` it answers the fault `rec` and nothing changes (R244). In `Running` it always
answers a next state: that of the instruction at pc, or, for a fetch fault (R241) or an invalid word (R246), the
state in which that fault has been taken. -/
def step (s : State) : Host.Outcome State Fault Refusal :=
  match s.status with
  | .halted record => .fault (.halted record)
  | .running =>
    match fetch s with
    | .error e => .next (takeFault s e none)
    | .ok w =>
      match decodeWord w with
      | .error _ => .next (takeFault s .invalidOpcode (some w))
      | .ok i => exec i s

/-- `s` with the word `w` of the opcode table (its lowest `nbits` bits) stored at pc, where `step` fetches it
(logs 14, 15 and 28). -/
def State.withFetchWord (s : State) (nbits w : Nat) : State := placeWord s (tableWord nbits w)

end Sys2Proof.Machine
end

