-- ==== Sys2Proof/Machine/Driver.lean ====
section
/-! DEFINITION. What the driver and the renderer may do (70_reset_and_hazards.md R275): a new session, the program
load, step, timer ticks and the display snapshot; the sound output (10_state.md R36); and the finite and infinite
histories these make (R35), with the fairness premises of R35 and R279. The actions of R280 have no move here. -/

namespace Sys2Proof.Machine

/-- A timer one lower, floored at 0 (R34). -/
def tickDown (b : Byte) : Byte := if b = 0 then 0 else b - 1

/-- `tick_timers()` (R34, R46), in the Running and the Halted status alike. -/
def tickTimers (s : State) : State := (s.setDT (tickDown s.DT)).setST (tickDown s.ST)

/-- `sound_on = (ST != 0)`, the block's one output (R36). -/
def soundOn (s : State) : Bool := s.ST != 0

/-- `snapshot()`: a copy of the grid; no state changes (R48). -/
def snapshot (s : State) : Grid := s.fb

/-- What a driver's call hands back: `Ok` or `Fault(rec)` (R45, R47). -/
inductive Report where
  | ok
  | fault (record : FaultRecord)
  deriving DecidableEq, Repr

/-- The memory of R271 after its steps 1 and 2, for any value of the parameter `FONT`: zero, with
`bulk_write(0x050, FONT)`. It writes over the default font that an unlisted address reads as (log 13), and the 80
bytes are in range, so nothing faults. -/
def fontMemory (font : Font) : Memory := putAll [] Config.fontBase (font.toList.map BitVec.toNat)

/-- The state after reset with any value of the parameter `FONT` (R12, R270; 93_implementation_defined.md U13).
State.reset is this state at the default. -/
def State.resetWith (font : Font) : State := State.reset.setMem (fontMemory font)

/-- `load(image) -> Ok | Fault`: `bulk_write(0x200, image)`; on failure no byte is written and the status becomes
`Halted{OutOfRangeAddress, none, none, addr}`, whose record is handed back (R47, R272, R275). -/
def load (image : List Byte) (s : State) : State × Report :=
  match bulkWrite s.mem Config.programBase (image.map BitVec.toNat) with
  | .ok m => (s.setMem m, .ok)
  | .error e => (s.setStatus (.halted (faultRecord e none none)), .fault (faultRecord e none none))

/-- Reset and load, in the order of R271, for any value of `FONT`: the state in which the first step may be called. -/
def newSessionWith (font : Font) (image : List Byte) : State := (load image (State.resetWith font)).1

/-- Reset and load of this machine, whose `FONT` is the default. -/
def newSession (image : List Byte) : State := (load image State.reset).1

/-- The report that a status stands for after a step. -/
def reportOf : Status → Report
  | .running => .ok
  | .halted record => .fault record

/-- `step()` as the driver calls it: the state after the call and what it returns (R45, R240). A fault of `step` is
the answer in the Halted status, where nothing changes (R244); no step is refused. -/
def stepCall (s : State) : State × Report :=
  match step s with
  | .next t => (t, reportOf t.status)
  | .fault (.halted record) => (s, .fault record)
  | .refused _ => (s, reportOf s.status)

/-- What the driver or the renderer does between resets (R275). -/
inductive Action where
  | step
  | tick
  | snapshot
  deriving DecidableEq, Repr

/-- The state after one action. -/
def perform (s : State) : Action → State
  | .step => (stepCall s).1
  | .tick => tickTimers s
  | .snapshot => s

/-- The state after a finite history of actions: "Any finite or infinite interleaving of `step` and `tick_timers` calls
is a legal history" (R35). -/
def history (s : State) : List Action → State
  | [] => s
  | a :: as => history (perform s a) as

/-- The state after the first `n` actions of an infinite history (R35). -/
def run (s : State) (acts : Nat → Action) : Nat → State
  | 0 => s
  | n + 1 => perform (run s acts n) (acts n)

/-- The fairness premise of R35, "that ticks keep occurring": after every action there is a later tick. -/
def TicksKeepOccurring (acts : Nat → Action) : Prop := ∀ n, ∃ m, n ≤ m ∧ acts m = .tick

/-- The fairness premise of R279 for a wait on Fx0A, that "the keyboard delivers a key": after every query there is a
later one that a poll answers with a key. It speaks of free values (log 1), so nothing shows that it holds. -/
def KeysKeepComing : Prop := ∀ q, ∃ k, q ≤ k ∧ Config.pollKey k ≠ none

/-- A state that some session reaches: some image loaded after a reset with some `FONT`, then some finite history. The
states of an infinite history are those its finite beginnings reach. -/
def Reachable (s : State) : Prop := ∃ font image as, history (newSessionWith font image) as = s

end Sys2Proof.Machine
end

