-- ==== Sys2Proof/Safety.lean ====
section
/-! DEFINITION. The terms claims are stated in: the parts of the state and what it means that one is unchanged, the
invariant of the machine, the final states of a run (70_reset_and_hazards.md R274), safe states, and the bit a sprite
has at a cell of the grid (42_display.md R181). -/

namespace Sys2Proof.Machine

/-- A part of the state, as a program or the driver can see it: one register, one byte of memory, one cell of the
grid, or one of the other fields. Together they are all of `State`. -/
inductive Part where
  | reg (x : Nibble)
  | pc
  | idx
  | stack
  | DT
  | ST
  | byte (a : Nat)
  | cell (px : Fin 64) (py : Fin 32)
  | status
  | draws
  deriving DecidableEq, Repr

/-- The part `p` reads the same in `t` as in `s`. -/
def Unchanged (p : Part) (s t : State) : Prop :=
  match p with
  | .reg x => t.getV x = s.getV x
  | .pc => t.pc = s.pc
  | .idx => t.I = s.I
  | .stack => t.stack = s.stack
  | .DT => t.DT = s.DT
  | .ST => t.ST = s.ST
  | .byte a => Memory.get t.mem a = Memory.get s.mem a
  | .cell px py => fbGet t.fb px py = fbGet s.fb px py
  | .status => t.status = s.status
  | .draws => t.draws = s.draws

/-- The bit that an `n`-row sprite at address `I`, drawn from the origin (x0, y0), has at the grid cell (px, py): bit
`7 - (px - x0)` of the byte at `I + (py - y0)`, and 0 outside the sprite (R181). -/
def spriteBit (m : Memory) (I x0 y0 n : Nat) (px : Fin 64) (py : Fin 32) : Bool :=
  decide (x0 ≤ px.val ∧ px.val < x0 + 8 ∧ y0 ≤ py.val ∧ py.val < y0 + n) &&
    (Memory.get m (I + (py.val - y0))).getLsbD (7 - (px.val - x0))

/-- How many bytes of memory an instruction accesses through I (20_memory.md R74). -/
def accessCount : Instr → Nat
  | .drw _ _ n => n.toNat
  | .ldBVx _ => 3
  | .ldMemVx x => x.toNat + 1
  | .ldVxMem x => x.toNat + 1
  | _ => 0

/-- `i` completes in every state with `V[x] <- val s` and pc at the following word, and leaves every other part of the
state unchanged. -/
def LoadsRegister (i : Instr) (x : Nibble) (val : State → Byte) : Prop :=
  ∀ s, ∃ t, exec i s = .next t ∧ t.getV x = val s ∧ t.pc = s.pc + 2 ∧
    ∀ p, p ≠ .pc → p ≠ .reg x → Unchanged p s t

/-- `i` completes in every state with `V[x] <- val s`, then `V[15] <- flag s`, so that the flag is the final value of VF
when x = 15 (10_state.md R38), and pc at the following word; every other part of the state is unchanged. -/
def LoadsRegisterAndFlag (i : Instr) (x : Nibble) (val flag : State → Byte) : Prop :=
  ∀ s, ∃ t, exec i s = .next t ∧ (x ≠ 0xF → t.getV x = val s) ∧ t.getV 0xF = flag s ∧ t.pc = s.pc + 2 ∧
    ∀ p, p ≠ .pc → p ≠ .reg x → p ≠ .reg 0xF → Unchanged p s t

/-- `i` completes in every state with `I <- val s` and pc at the following word, and leaves every other part of the
state unchanged. -/
def LoadsIndex (i : Instr) (val : State → Addr) : Prop :=
  ∀ s, ∃ t, exec i s = .next t ∧ t.I = val s ∧ t.pc = s.pc + 2 ∧ ∀ p, p ≠ .pc → p ≠ .idx → Unchanged p s t

/-- `i` completes in every state with pc four past its own address where `cond` holds and two past it elsewhere, and
leaves every other part of the state unchanged; where pc is then above 0xFFE the next fetch faults. -/
def SkipsIf (i : Instr) (cond : State → Prop) : Prop :=
  ∀ s, ∃ t, exec i s = .next t ∧ (cond s → t.pc = s.pc + 4) ∧ (¬ cond s → t.pc = s.pc + 2) ∧
    (∀ p, p ≠ .pc → Unchanged p s t) ∧ (0xFFE < t.pc.toNat → ∃ a, fetch t = .error (.outOfRangeAddress a))

/-- pc never exceeds 0x10FE (10_state.md R26). -/
abbrev pcBounded (s : State) : Prop := s.pc.toNat ≤ 0x10FE

/-- The stack holds at most `STACK_DEPTH` entries (R30), each an address after a CALL, at most 0x1000
(40_control_flow.md R120). -/
abbrev stackBounded (s : State) : Prop :=
  s.stack.length ≤ params.stackDepth ∧ ∀ a ∈ s.stack, a.toNat ≤ 0x1000

/-- A halted engine's pc is the fetch address its record holds, unless the load failed (60_exceptions.md R243,
70_reset_and_hazards.md R272). -/
def recordMatches (s : State) : Prop :=
  ∀ record, s.status = .halted record → record.pcFetch = some s.pc ∨ record.pcFetch = none

/-- The invariant of the machine. -/
def MachineInv (s : State) : Prop := Memory.wf s.mem ∧ pcBounded s ∧ stackBounded s ∧ recordMatches s

/-- A final state of a run: Running, and the word at pc is a jump to itself (R274). -/
def isFinal (s : State) : Bool :=
  s.status == .running &&
    (match fetch s with
     | .ok w => fieldC w == 0x1 && zext16 (fieldNNN w) == s.pc
     | .error _ => false)

/-- A safe state has not faulted: a run that ends Halted "is never a successful end" (R274). -/
def isRunning (s : State) : Bool := s.status == .running

end Sys2Proof.Machine
end

