-- ==== Sys2Proof/Certificates/Slice0/Obligations.lean ====
section
/-! DEFINITION. The statements for the provers, each named after what it states. A docstring names the rule of spec/
that a statement formalises, or, for a statement of basis 'derived', the section, decision or log entry it rests on. -/

open Sys2Proof Sys2Proof.Machine

/-! ### Encoding -/

/-- Decoding an encoded instruction gives it back, as a word and as the bytes memory holds, and the decoder consumes
exactly two bytes (30_encoding.md sections 1 to 3). -/
def Obligations.DecodeOfEncodeGivesTheInstruction : Prop :=
  ∀ (i : Instr) (rest : List Byte), decodeWord (encode i) = .ok i ∧ decode (encodeBytes i ++ rest) = .ok (i, rest)

/-- A word that decodes is the encoding of what it decodes to: decoding drops no bit (30_encoding.md section 2). It is
why a fault record may take the word from the instruction (log 4). -/
def Obligations.EncodeOfDecodeGivesTheWord : Prop :=
  ∀ (w : Word) (i : Instr), decodeWord w = .ok i → encode i = w

/-- Decode and the opcode map of 30_encoding.md section 3 agree: a word decodes exactly when some row selects it, the
instruction belongs to that row, and so no two rows select one word. -/
def Obligations.DecodeAgreesWithTheOpcodeMap : Prop :=
  opcodeMap.length = 34 ∧
  (∀ (w : Word) (i : Instr), decodeWord w = .ok i → i.row ∈ opcodeMap ∧ i.row.selects w = true) ∧
  (∀ (w : Word) (r : Row), r ∈ opcodeMap → r.selects w = true → ∃ i, decodeWord w = .ok i ∧ i.row = r)

/-- The invalid words, class by class (30_encoding.md section 4; class 0 by decision D12). -/
def Obligations.InvalidWordsAreRefusedByClass : Prop :=
  ∀ w : Word, (∃ e, decodeWord w = .error e) ↔
    (fieldC w = 0x0 ∧ w ≠ 0x00E0 ∧ w ≠ 0x00EE) ∨
    (fieldC w = 0x5 ∧ fieldN w ≠ 0) ∨
    (fieldC w = 0x8 ∧ fieldN w ∈ ([0x8, 0x9, 0xA, 0xB, 0xC, 0xD, 0xF] : List Nibble)) ∨
    (fieldC w = 0x9 ∧ fieldN w ≠ 0) ∨
    (fieldC w = 0xE ∧ fieldNN w ∉ ([0x9E, 0xA1] : List Byte)) ∨
    (fieldC w = 0xF ∧ fieldNN w ∉ ([0x07, 0x0A, 0x15, 0x18, 0x1E, 0x29, 0x33, 0x55, 0x65] : List Byte))

/-- A few words written out from the patterns of 30_encoding.md section 3, one or more for each family. -/
def Obligations.SampleWordsDecode : Prop :=
  decodeWord 0x00E0 = .ok .cls ∧ decodeWord 0x00EE = .ok .ret ∧ decodeWord 0x1204 = .ok (.jp 0x204) ∧
  decodeWord 0x3100 = .ok (.seImm 0x1 0x00) ∧ decodeWord 0x6A3B = .ok (.ldImm 0xA 0x3B) ∧
  decodeWord 0x812E = .ok (.shl 0x1 0x2) ∧ decodeWord 0xD015 = .ok (.drw 0x0 0x1 0x5) ∧
  decodeWord 0xF265 = .ok (.ldVxMem 0x2) ∧ decodeWord 0xF00A = .ok (.ldVxK 0x0) ∧
  decodeWord 0x8128 = .error .class8 ∧ decodeWord 0x0000 = .error .class0

/-! ### The step -/

/-- 60_exceptions.md R240, its pseudocode: in Halted the step returns the record; in Running it fetches, decodes and
executes one instruction, and a fetch fault or an invalid word puts the state the step began in, with the record, in
place of the execution. -/
def Obligations.StepFetchesDecodesAndExecutes : Prop :=
  (∀ (s : State) (r : FaultRecord), s.status = .halted r → step s = .fault (.halted r) ∧ stepCall s = (s, .fault r)) ∧
  (∀ (s : State) (w : Word) (i : Instr), s.status = .running → fetch s = .ok w → decodeWord w = .ok i →
    step s = exec i s) ∧
  (∀ (s : State) (w : Word) (e : Reject), s.status = .running → fetch s = .ok w → decodeWord w = .error e →
    step s = .next { s with status := .halted ⟨.invalidOpcode, some s.pc, some w, none⟩ }) ∧
  (∀ (s : State) (e : Raise), s.status = .running → fetch s = .error e →
    step s = .next { s with status := .halted ⟨e.kind, some s.pc, none, e.addr⟩ }) ∧
  (∀ s t : State, s.status = .running → step s = .next t → stepCall s = (t, reportOf t.status))

/-- Fetch reads the two bytes at pc and pc + 1, high byte first; above 0xFFE it faults with the first address out of
range (20_memory.md section 4, 60_exceptions.md section 1). Two clauses are choices of the spec: an odd pc is fetched
like an even one (decision D11, log 19), and pc + 1 does not wrap (decision D7, log 17). -/
def Obligations.FetchIsBigEndianAndChecked : Prop :=
  ∀ s : State,
    (s.pc.toNat ≤ 0xFFE → fetch s =
      .ok (BitVec.ofNat 16 (256 * (Memory.get s.mem s.pc.toNat).toNat + (Memory.get s.mem (s.pc.toNat + 1)).toNat))) ∧
    (s.pc = 0xFFF → fetch s = .error (.outOfRangeAddress 0x1000)) ∧
    (0xFFF < s.pc.toNat → fetch s = .error (.outOfRangeAddress s.pc.toNat))

/-- A step in Running always answers a next state: no instruction is refused, whatever the state (60_exceptions.md
sections 1 and 5; that a fault is a next state is the model's choice, log 3). -/
def Obligations.RunningStepAlwaysAnswersANextState : Prop :=
  ∀ s : State, s.status = .running → ∃ t, step s = .next t

/-- The word placed at pc is the one the next step runs (log 14: how a program comes to be in memory is the loader's
affair). -/
def Obligations.StepRunsThePlacedWord : Prop :=
  ∀ (s : State) (w : Word) (i : Instr), s.status = .running → s.pc.toNat ≤ 0xFFE → decodeWord w = .ok i →
    step (s.withFetchWord 16 w.toNat) = exec i (s.withFetchWord 16 w.toNat)

/-! ### Control transfer and skips -/

/-- RET pops the stack top into pc as it is, and StackUnderflow if the stack is empty (40_control_flow.md, RET). That in a
session the popped address is at most 0x1000 is an inference the spec marks as its own there ("derived"); it rests on
decisions D2 and D8 (logs 7 and 18). -/
def Obligations.RetPopsTheReturnAddress : Prop :=
  decodeWord 0x00EE = .ok .ret ∧
  (∀ (s : State) (a : Addr) (rest : List Addr), s.stack = a :: rest →
    ∃ t, exec .ret s = .next t ∧ t.pc = a ∧ t.stack = rest ∧ ∀ p, p ≠ .pc → p ≠ .stack → Unchanged p s t) ∧
  (∀ s : State, s.stack = [] →
    ∃ t r, exec .ret s = .next t ∧ t.status = .halted r ∧ r.kind = .stackUnderflow) ∧
  (∀ (s : State) (a : Addr) (rest : List Addr), Reachable s → s.stack = a :: rest → a.toNat ≤ 0x1000)

/-- 40_control_flow.md R121, JP nnn: `pc <- zext_16(nnn)`; a target that cannot be fetched faults at the next fetch. -/
def Obligations.JpSetsPc : Prop :=
  ∀ (nnn : Addr12) (s : State), decodeWord (packNNN 0x1 nnn) = .ok (.jp nnn) ∧
    ∃ t, exec (.jp nnn) s = .next t ∧ t.pc = nnn.setWidth 16 ∧ (∀ p, p ≠ .pc → Unchanged p s t) ∧
      (nnn = 0xFFF → fetch t = .error (.outOfRangeAddress 0x1000))

/-- CALL nnn pushes the address of the following word and jumps (40_control_flow.md, CALL; the bound of 16 entries is
decision D2, log 7). -/
def Obligations.CallPushesTheReturnAddress : Prop :=
  ∀ (nnn : Addr12) (s : State), s.stack.length < 16 →
    ∃ t, exec (.call nnn) s = .next t ∧ t.stack = (s.pc + 2) :: s.stack ∧ t.pc = nnn.setWidth 16 ∧
      ∀ p, p ≠ .pc → p ≠ .stack → Unchanged p s t

/-- RET on an empty stack and CALL on a full one fault with their records and commit nothing else (60_exceptions.md
sections 1 and 2; decisions D2, D5 and D27, logs 7 and 12). -/
def Obligations.StackFaultsRecordAndCommitNothing : Prop :=
  (∀ s : State, s.stack = [] →
    exec .ret s = .next { s with status := .halted ⟨.stackUnderflow, some s.pc, some 0x00EE, none⟩ }) ∧
  (∀ (nnn : Addr12) (s : State), 16 ≤ s.stack.length →
    exec (.call nnn) s = .next { s with status := .halted ⟨.stackOverflow, some s.pc, some (packNNN 0x2 nnn), none⟩ })

/-- A RET from the routine a CALL entered comes back to the word after the CALL with the stack as it was, whatever else
the routine changed (90_conflicts.md C3; decision D2, log 7). -/
def Obligations.RetAfterCallReturnsPastTheCall : Prop :=
  ∀ (nnn : Addr12) (s : State), s.stack.length < 16 →
    ∃ t, exec (.call nnn) s = .next t ∧
      ∀ u : State, u.stack = t.stack → ∃ v, exec .ret u = .next v ∧ v.pc = s.pc + 2 ∧ v.stack = s.stack

/-- 40_control_flow.md R123 to R126, the four register skips: exactly one word is passed when the condition holds. -/
def Obligations.RegisterSkipsPassOneWord : Prop :=
  (∀ (x : Nibble) (nn : Byte), decodeWord (packXNN 0x3 x nn) = .ok (.seImm x nn) ∧
    SkipsIf (.seImm x nn) fun s => s.getV x = nn) ∧
  (∀ (x : Nibble) (nn : Byte), decodeWord (packXNN 0x4 x nn) = .ok (.sneImm x nn) ∧
    SkipsIf (.sneImm x nn) fun s => s.getV x ≠ nn) ∧
  (∀ x y : Nibble, decodeWord (packXYN 0x5 x y 0) = .ok (.seReg x y) ∧
    SkipsIf (.seReg x y) fun s => s.getV x = s.getV y) ∧
  (∀ x y : Nibble, decodeWord (packXYN 0x9 x y 0) = .ok (.sneReg x y) ∧
    SkipsIf (.sneReg x y) fun s => s.getV x ≠ s.getV y) ∧
  (∀ x y n : Nibble, n ≠ 0 → decodeWord (packXYN 0x5 x y n) = .error .class5 ∧
    decodeWord (packXYN 0x9 x y n) = .error .class9)

/-- JP V0, nnn: `pc <- nnn + V0`, not truncated to 12 bits, at most 0x10FE, and above 0xFFE the next fetch faults
(40_control_flow.md, JP V0; decision D13 and general knowledge, log 21). -/
def Obligations.JpV0AddsV0 : Prop :=
  ∀ (nnn : Addr12) (s : State),
    ∃ t, exec (.jpV0 nnn) s = .next t ∧ t.pc.toNat = nnn.toNat + (s.getV 0).toNat ∧ t.pc.toNat ≤ 0x10FE ∧
      (∀ p, p ≠ .pc → Unchanged p s t) ∧ (0xFFE < t.pc.toNat → ∃ a, fetch t = .error (.outOfRangeAddress a))

/-- What pc is after a step that did not fault (10_state.md section 2). Three clauses rest on general knowledge and the
spec's decisions (log 21): the target of Bnnn (D13), the key of Ex9E and ExA1 in the low nibble of Vx (D15), and the
retry of Fx0A (D16). -/
def Obligations.PcAfterAStep : Prop :=
  ∀ (s t : State) (w : Word) (i : Instr), s.status = .running → fetch s = .ok w → decodeWord w = .ok i →
    step s = .next t → t.status = .running →
    match i with
    | .jp nnn => t.pc = nnn.setWidth 16
    | .call nnn => t.pc = nnn.setWidth 16
    | .jpV0 nnn => t.pc = nnn.setWidth 16 + (s.getV 0).setWidth 16
    | .ret => s.stack.head? = some t.pc
    | .seImm x nn => t.pc = if s.getV x = nn then s.pc + 4 else s.pc + 2
    | .sneImm x nn => t.pc = if s.getV x = nn then s.pc + 2 else s.pc + 4
    | .seReg x y => t.pc = if s.getV x = s.getV y then s.pc + 4 else s.pc + 2
    | .sneReg x y => t.pc = if s.getV x = s.getV y then s.pc + 2 else s.pc + 4
    | .skp x => t.pc = if keyDown s (lowNibble (s.getV x)) = true then s.pc + 4 else s.pc + 2
    | .sknp x => t.pc = if keyDown s (lowNibble (s.getV x)) = true then s.pc + 2 else s.pc + 4
    | .ldVxK _ => t.pc = if pollKey s = none then s.pc else s.pc + 2
    | _ => t.pc = s.pc + 2

/-! ### Register loads and arithmetic -/

/-- 10_state.md R20: sixteen registers of 8 bits, none hardwired and none an alias, 0 after reset. -/
def Obligations.RegistersAreSixteenIndependentBytes : Prop :=
  (∀ (s : State) (x y : Nibble) (b : Byte), (s.setV x b).getV y = if y = x then b else s.getV y) ∧
  ∀ x : Nibble, State.reset.getV x = 0

/-- 41_load_alu.md R150 and R151: load immediate, and add immediate mod 256 with no flag. -/
def Obligations.LoadAndAddImmediate : Prop :=
  (∀ (x : Nibble) (nn : Byte), decodeWord (packXNN 0x6 x nn) = .ok (.ldImm x nn) ∧
    LoadsRegister (.ldImm x nn) x fun _ => nn) ∧
  (∀ (x : Nibble) (nn : Byte), decodeWord (packXNN 0x7 x nn) = .ok (.addImm x nn) ∧
    LoadsRegister (.addImm x nn) x fun s => BitVec.ofNat 8 ((s.getV x).toNat + nn.toNat))

/-- The copy and the bitwise operations write Vx alone; VF keeps its value unless x = F (41_load_alu.md, 8xy0 to 8xy3;
general knowledge and decision D19, logs 20 and 21). -/
def Obligations.CopyAndBitwiseOperations : Prop :=
  ∀ x y : Nibble,
    (LoadsRegister (.ldReg x y) x fun s => s.getV y) ∧
    (LoadsRegister (.orReg x y) x fun s => s.getV x ||| s.getV y) ∧
    (LoadsRegister (.andReg x y) x fun s => s.getV x &&& s.getV y) ∧
    (LoadsRegister (.xorReg x y) x fun s => s.getV x ^^^ s.getV y)

/-- ADD Vx, Vy: the sum mod 256, then VF = 1 exactly when the unbounded sum exceeds 255 (41_load_alu.md, 8xy4; the
destination is general knowledge, the order is decision D4, logs 20 and 21). -/
def Obligations.AddSetsCarry : Prop :=
  ∀ x y : Nibble, LoadsRegisterAndFlag (.addReg x y) x
    (fun s => BitVec.ofNat 8 ((s.getV x).toNat + (s.getV y).toNat))
    (fun s => if 255 < (s.getV x).toNat + (s.getV y).toNat then 1 else 0)

/-- SUB and SUBN: the difference mod 256, then VF = NOT borrow (41_load_alu.md, 8xy5 and 8xy7; decisions D4 and D20,
log 20). -/
def Obligations.SubtractSetsNotBorrow : Prop :=
  ∀ x y : Nibble,
    (LoadsRegisterAndFlag (.sub x y) x
      (fun s => BitVec.ofInt 8 ((s.getV x).toNat - (s.getV y).toNat : Int))
      (fun s => if (s.getV y).toNat ≤ (s.getV x).toNat then 1 else 0)) ∧
    (LoadsRegisterAndFlag (.subn x y) x
      (fun s => BitVec.ofInt 8 ((s.getV y).toNat - (s.getV x).toNat : Int))
      (fun s => if (s.getV x).toNat ≤ (s.getV y).toNat then 1 else 0))

/-- SHR and SHL of this machine shift Vx itself by one, and VF is the bit shifted out (41_load_alu.md, 8xy6 and 8xyE;
decisions D3 and D4, logs 8 and 20). -/
def Obligations.ShiftsSetTheBitShiftedOut : Prop :=
  ∀ x y : Nibble,
    (LoadsRegisterAndFlag (.shr x y) x
      (fun s => BitVec.ofNat 8 ((s.getV x).toNat / 2)) (fun s => BitVec.ofNat 8 ((s.getV x).toNat % 2))) ∧
    (LoadsRegisterAndFlag (.shl x y) x
      (fun s => BitVec.ofNat 8 (2 * (s.getV x).toNat)) (fun s => BitVec.ofNat 8 ((s.getV x).toNat / 128)))

/-- What the three parameters that instructions read select, for every value of them: the shifts' source, the move of I after Fx55 and Fx65,
and the depth at which CALL overflows (00_scope.md section 3, decisions D2, D3 and D17; logs 7, 8 and 9). -/
def Obligations.ParametersSelectTheirVariants : Prop :=
  ∀ (p : Params) (x y : Nibble) (s : State),
    (∃ t, shrWith p x y s = .next t ∧
      (x ≠ 0xF → t.getV x = BitVec.ofNat 8 ((if p.shiftUsesVy then s.getV y else s.getV x).toNat / 2)) ∧
      t.getV 0xF = BitVec.ofNat 8 ((if p.shiftUsesVy then s.getV y else s.getV x).toNat % 2)) ∧
    (∃ t, shlWith p x y s = .next t ∧
      (x ≠ 0xF → t.getV x = BitVec.ofNat 8 (2 * (if p.shiftUsesVy then s.getV y else s.getV x).toNat)) ∧
      t.getV 0xF = BitVec.ofNat 8 ((if p.shiftUsesVy then s.getV y else s.getV x).toNat / 128)) ∧
    (s.I.toNat + x.toNat ≤ 4095 → ∃ t u, ldMemVxWith p x s = .next t ∧ ldVxMemWith p x s = .next u ∧
      t.I.toNat = (if p.loadStoreIncrementsI then s.I.toNat + x.toNat + 1 else s.I.toNat) ∧ u.I = t.I) ∧
    (∀ nnn : Addr12, ∃ t, callWith p nnn s = .next t ∧
      (s.stack.length < p.stackDepth → t.stack = (s.pc + 2) :: s.stack ∧ t.status = s.status) ∧
      (p.stackDepth ≤ s.stack.length → t.stack = s.stack ∧
        t.status = .halted ⟨.stackOverflow, some s.pc, some (packNNN 0x2 nnn), none⟩))

/-- RND Vx, nn: a fresh answer of the random source, of which nothing is known, under the mask (41_load_alu.md, Cxnn;
decision D14 and general knowledge, logs 1 and 21). -/
def Obligations.RndMasksAFreshByte : Prop :=
  ∀ (x : Nibble) (nn : Byte) (s : State),
    ∃ t, exec (.rnd x nn) s = .next t ∧ t.getV x = Config.randByte s.draws &&& nn ∧ t.getV x &&& ~~~nn = 0 ∧
      t.pc = s.pc + 2 ∧ t.draws = s.draws + 1 ∧ ∀ p, p ≠ .pc → p ≠ .reg x → p ≠ .draws → Unchanged p s t

/-- 60_exceptions.md R249: wrapping arithmetic is never a fault. -/
def Obligations.WrappingArithmeticNeverFaults : Prop :=
  ∀ (x y n : Nibble) (nn : Byte) (s : State),
    (∀ i ∈ ([.addImm x nn, .addReg x y, .sub x y, .subn x y, .addIVx x] : List Instr),
      ∃ t, exec i s = .next t ∧ t.status = s.status) ∧
    (n = 0 ∨ s.I.toNat + n.toNat ≤ 4096 → ∃ t, exec (.drw x y n) s = .next t ∧ t.status = s.status)

/-! ### Display -/

/-- 42_display.md R180, CLS: every cell OFF, VF and all else unchanged. -/
def Obligations.ClsClearsEveryCell : Prop :=
  decodeWord 0x00E0 = .ok .cls ∧
  ∀ s : State, ∃ t, exec .cls s = .next t ∧ (∀ px py, fbGet t.fb px py = false) ∧ t.pc = s.pc + 2 ∧
    ∀ p, p ≠ .pc → (∀ px py, p ≠ .cell px py) → Unchanged p s t

/-- DRW Vx, Vy, n as a whole picture: where all its rows can be read, every cell of the grid is XORed with the sprite's
bit there (origin wrapped, pixels clipped), VF says whether a sprite bit met an ON cell, and nothing else changes
(42_display.md, Dxyn; n = 0 is decision D33, log 29). -/
def Obligations.DrawXorsTheSpriteAndReportsCollision : Prop :=
  ∀ (x y n : Nibble) (s : State), n = 0 ∨ s.I.toNat + n.toNat ≤ 4096 →
    ∃ t, exec (.drw x y n) s = .next t ∧
      (∀ px py, fbGet t.fb px py = (fbGet s.fb px py ^^
        spriteBit s.mem s.I.toNat ((s.getV x).toNat % 64) ((s.getV y).toNat % 32) n.toNat px py)) ∧
      ((∃ px py, spriteBit s.mem s.I.toNat ((s.getV x).toNat % 64) ((s.getV y).toNat % 32) n.toNat px py = true ∧
        fbGet s.fb px py = true) → t.getV 0xF = 1) ∧
      ((¬ ∃ px py, spriteBit s.mem s.I.toNat ((s.getV x).toNat % 64) ((s.getV y).toNat % 32) n.toNat px py = true ∧
        fbGet s.fb px py = true) → t.getV 0xF = 0) ∧
      t.pc = s.pc + 2 ∧
      ∀ p, p ≠ .pc → p ≠ .reg 0xF → (∀ px py, p ≠ .cell px py) → Unchanged p s t

/-- Drawing the same sprite twice at the same origin restores the grid, and the second draw reports a collision exactly
when the sprite has a visible pixel on a cell that was OFF before the first (42_display.md, Dxyn, corner cases; log 29
says where the spec's remark on the second collision needs this condition). -/
def Obligations.DrawingTwiceRestoresTheGrid : Prop :=
  ∀ (x y n : Nibble) (s : State), x ≠ 0xF → y ≠ 0xF → n = 0 ∨ s.I.toNat + n.toNat ≤ 4096 →
    ∃ t u, exec (.drw x y n) s = .next t ∧ exec (.drw x y n) t = .next u ∧
      (∀ px py, fbGet u.fb px py = fbGet s.fb px py) ∧
      (u.getV 0xF = 1 ↔
        ∃ px py, spriteBit s.mem s.I.toNat ((s.getV x).toNat % 64) ((s.getV y).toNat % 32) n.toNat px py = true ∧
          fbGet s.fb px py = false)

/-- Only DRW and CLS write the grid, and a draw is a unit: no other step, tick or snapshot changes or splits it
(42_display.md, the last rule). That a draw that faults has drawn nothing is decision D5 (log 12). -/
def Obligations.OnlyDrawAndClearWriteTheGrid : Prop :=
  (∀ (i : Instr) (s t : State), exec i s = .next t → (∃ px py, fbGet t.fb px py ≠ fbGet s.fb px py) →
    i = .cls ∨ ∃ x y n, i = .drw x y n) ∧
  (∀ (x y n : Nibble) (s t : State), s.status = .running → exec (.drw x y n) s = .next t → t.status ≠ .running →
    t.fb = s.fb) ∧
  (∀ s : State, (tickTimers s).fb = s.fb ∧ (perform s .snapshot).fb = s.fb ∧ snapshot s = s.fb)

/-! ### Index register and memory transfer -/

/-- 43_index_memory.md R200, LD I, nnn. -/
def Obligations.LdILoadsTheIndex : Prop :=
  ∀ nnn : Addr12, decodeWord (packNNN 0xA nnn) = .ok (.ldI nnn) ∧ LoadsIndex (.ldI nnn) fun _ => nnn.setWidth 16

/-- ADD I, Vx wraps at 16 bits and leaves VF alone; LD F, Vx points I at the glyph of the low nibble of Vx
(43_index_memory.md, Fx1E and Fx29; decisions D8, D15 and D18, logs 18, 20 and 21). -/
def Obligations.IndexArithmeticAndGlyphs : Prop :=
  ∀ x : Nibble,
    (LoadsIndex (.addIVx x) fun s => BitVec.ofNat 16 (s.I.toNat + (s.getV x).toNat)) ∧
    (LoadsIndex (.ldFVx x) fun s => BitVec.ofNat 16 (0x050 + 5 * ((s.getV x).toNat % 16)))

/-- LD B, Vx stores the three decimal digits of Vx at I, I + 1 and I + 2 and changes no other byte
(43_index_memory.md, Fx33; general knowledge, log 21). -/
def Obligations.BcdStoresThreeDigits : Prop :=
  ∀ (x : Nibble) (s : State), s.I.toNat + 2 ≤ 4095 →
    ∃ t, exec (.ldBVx x) s = .next t ∧
      Memory.get t.mem s.I.toNat = BitVec.ofNat 8 ((s.getV x).toNat / 100) ∧
      Memory.get t.mem (s.I.toNat + 1) = BitVec.ofNat 8 ((s.getV x).toNat / 10 % 10) ∧
      Memory.get t.mem (s.I.toNat + 2) = BitVec.ofNat 8 ((s.getV x).toNat % 10) ∧
      t.pc = s.pc + 2 ∧ ∀ p, p ≠ .pc → (∀ k, k < 3 → p ≠ .byte (s.I.toNat + k)) → Unchanged p s t

/-- LD [I], Vx stores V0 to Vx at I to I + x, and changes no other byte and, on this machine, not I
(43_index_memory.md, Fx55; general knowledge and decision D17, logs 9 and 21). -/
def Obligations.StoreRegistersWritesTheBlock : Prop :=
  ∀ (x : Nibble) (s : State), s.I.toNat + x.toNat ≤ 4095 →
    ∃ t, exec (.ldMemVx x) s = .next t ∧
      (∀ k : Nibble, k.toNat ≤ x.toNat → Memory.get t.mem (s.I.toNat + k.toNat) = s.getV k) ∧
      t.pc = s.pc + 2 ∧
      ∀ p, p ≠ .pc → (∀ k : Nibble, k.toNat ≤ x.toNat → p ≠ .byte (s.I.toNat + k.toNat)) → Unchanged p s t

/-- LD Vx, [I] loads V0 to Vx from I to I + x, and changes no register above Vx and, on this machine, not I
(43_index_memory.md, Fx65; general knowledge and decision D17, logs 9 and 21). -/
def Obligations.LoadRegistersReadsTheBlock : Prop :=
  ∀ (x : Nibble) (s : State), s.I.toNat + x.toNat ≤ 4095 →
    ∃ t, exec (.ldVxMem x) s = .next t ∧
      (∀ k : Nibble, k.toNat ≤ x.toNat → t.getV k = Memory.get s.mem (s.I.toNat + k.toNat)) ∧
      t.pc = s.pc + 2 ∧
      ∀ p, p ≠ .pc → (∀ k : Nibble, k.toNat ≤ x.toNat → p ≠ .reg k) → Unchanged p s t

/-- An access through I that leaves the memory faults with the lowest address out of range and commits nothing
(43_index_memory.md and 42_display.md, exceptions; decisions D5, D7 and D27, logs 12 and 17). -/
def Obligations.MemoryFaultsReportTheLowestAddress : Prop :=
  ∀ (i : Instr) (s : State), accessCount i ≠ 0 → 4096 < s.I.toNat + accessCount i →
    ∃ t, exec i s = .next t ∧
      t.status = .halted ⟨.outOfRangeAddress, some s.pc, some (encode i), some (max s.I.toNat 4096 : Nat)⟩ ∧
      ∀ p, p ≠ .status → Unchanged p s t

/-- Code that LD [I], Vx wrote is what a fetch at its address reads, with nothing between (20_memory.md section 5,
decision D25, log 24; general knowledge, log 21). -/
def Obligations.StoredRegistersAreFetchedAsCode : Prop :=
  ∀ (x : Nibble) (s : State), s.I.toNat + x.toNat ≤ 4095 →
    ∃ t, exec (.ldMemVx x) s = .next t ∧
      ∀ k : Nibble, k.toNat < x.toNat →
        fetch (t.setPc (BitVec.ofNat 16 (s.I.toNat + k.toNat))) = .ok (s.getV k ++ s.getV (k + 1))

/-! ### Memory controller -/

/-- 20_memory.md R61 and R62: read and write of the controller at every integer address, in range and out of it. -/
def Obligations.ControllerReadsAndWritesInRange : Prop :=
  (∀ (m : Memory) (a : Int), 0 ≤ a ∧ a ≤ 4095 → memRead m a = .ok (Memory.get m a.toNat)) ∧
  (∀ (m : Memory) (a : Int), ¬ (0 ≤ a ∧ a ≤ 4095) → memRead m a = .error (.outOfRangeAddress a)) ∧
  (∀ (m : Memory) (a : Int) (v : Nat), 0 ≤ a ∧ a ≤ 4095 →
    ∃ m', memWrite m a v = .ok m' ∧ Memory.get m' a.toNat = BitVec.ofNat 8 (v % 256) ∧
      ∀ c, c ≠ a.toNat → Memory.get m' c = Memory.get m c) ∧
  (∀ (m : Memory) (a : Int) (v : Nat), ¬ (0 ≤ a ∧ a ≤ 4095) → memWrite m a v = .error (.outOfRangeAddress a))

/-- bulk_write is all or nothing: every byte, masked, or the lowest address out of range (20_memory.md section 1,
decision D9). -/
def Obligations.BulkWriteIsAllOrNothing : Prop :=
  (∀ (m : Memory) (start : Int) (vs : List Nat), (∀ k : Nat, k < vs.length → 0 ≤ start + k ∧ start + k ≤ 4095) →
    ∃ m', bulkWrite m start vs = .ok m' ∧
      (∀ k : Nat, k < vs.length → Memory.get m' (start + k).toNat = BitVec.ofNat 8 (vs.getD k 0)) ∧
      ∀ c : Nat, (∀ k : Nat, k < vs.length → (c : Int) ≠ start + k) → Memory.get m' c = Memory.get m c) ∧
  (∀ (m : Memory) (start : Int) (vs : List Nat) (k : Nat), k < vs.length → ¬ (0 ≤ start + k ∧ start + k ≤ 4095) →
    (∀ j : Nat, j < k → 0 ≤ start + j ∧ start + j ≤ 4095) →
    bulkWrite m start vs = .error (.outOfRangeAddress (start + k)))

/-- Two memories in canonical form that read the same everywhere are the same data (the model's form of memory,
log 13; 20_memory.md section 1). -/
def Obligations.CanonicalMemoryIsDeterminedByItsReads : Prop :=
  ∀ m m' : Memory, Memory.wf m → Memory.wf m' → (∀ a, Memory.get m a = Memory.get m' a) → m = m'

/-! ### Keyboard and timers -/

/-- SKP and SKNP skip on the keyboard's answer to one fresh query for the key of the low nibble of Vx
(44_keys_timers.md, Ex9E and ExA1; decisions D15 and D31, logs 1 and 21). -/
def Obligations.KeySkipsFollowOneFreshAnswer : Prop :=
  ∀ (x : Nibble) (s : State),
    (∃ t, exec (.skp x) s = .next t ∧
      t.pc = (if Config.keyDown s.draws (BitVec.ofNat 4 ((s.getV x).toNat % 16)) = true then s.pc + 4 else s.pc + 2) ∧
      t.draws = s.draws + 1 ∧ ∀ p, p ≠ .pc → p ≠ .draws → Unchanged p s t) ∧
    (∃ t, exec (.sknp x) s = .next t ∧
      t.pc = (if Config.keyDown s.draws (BitVec.ofNat 4 ((s.getV x).toNat % 16)) = true then s.pc + 2 else s.pc + 4) ∧
      t.draws = s.draws + 1 ∧ ∀ p, p ≠ .pc → p ≠ .draws → Unchanged p s t)

/-- LD Vx, K: on a key, Vx is its number; on none, pc is back at the instruction and nothing but the model's query count
has changed (44_keys_timers.md, Fx0A; decisions D16 and D31, logs 1, 2 and 21). -/
def Obligations.KeyWaitStoresTheKeyOrRetries : Prop :=
  ∀ (x : Nibble) (s : State),
    ∃ t, exec (.ldVxK x) s = .next t ∧ t.draws = s.draws + 1 ∧
      match Config.pollKey s.draws with
      | some k => t.getV x = BitVec.ofNat 8 k.toNat ∧ t.pc = s.pc + 2 ∧
          ∀ p, p ≠ .pc → p ≠ .reg x → p ≠ .draws → Unchanged p s t
      | none => ∀ p, p ≠ .draws → Unchanged p s t

/-- The wait of Fx0A is a re-execution: with no key the step answers a Running state in which the same word is fetched
again, at the same pc (44_keys_timers.md, the waiting rule; decision D16, logs 1 and 2). -/
def Obligations.KeyWaitRunsTheSameWordAgain : Prop :=
  ∀ (x : Nibble) (s : State), s.status = .running → fetch s = .ok (packXNN 0xF x 0x0A) →
    ∃ t, step s = .next t ∧ t.status = .running ∧
      match Config.pollKey s.draws with
      | some _ => True
      | none => fetch t = fetch s ∧ t.pc = s.pc ∧ ∀ p, p ≠ .draws → Unchanged p s t

/-- The timer transfers: Vx from DT, DT from Vx and ST from Vx, each writing one part (44_keys_timers.md, Fx07, Fx15 and
Fx18; general knowledge, log 21). -/
def Obligations.TimerTransfers : Prop :=
  ∀ x : Nibble,
    (LoadsRegister (.ldVxDt x) x fun s => s.DT) ∧
    (∀ s : State, ∃ t, exec (.ldDtVx x) s = .next t ∧ t.DT = s.getV x ∧ t.pc = s.pc + 2 ∧
      ∀ p, p ≠ .pc → p ≠ .DT → Unchanged p s t) ∧
    (∀ s : State, ∃ t, exec (.ldStVx x) s = .next t ∧ t.ST = s.getV x ∧ t.pc = s.pc + 2 ∧
      ∀ p, p ≠ .pc → p ≠ .ST → Unchanged p s t)

/-- Any number of ticks takes that much off both timers, floored at 0, and changes nothing else, Running or Halted; and
in every infinite history in which ticks keep occurring, a timer that no step changes reaches 0 and stays there
(10_state.md section 5, its fairness premise; decision D21, log 6). -/
def Obligations.TicksCountBothTimersDown : Prop :=
  (∀ (s : State) (k : Nat),
    (history s (List.replicate k .tick)).DT.toNat = s.DT.toNat - k ∧
    (history s (List.replicate k .tick)).ST.toNat = s.ST.toNat - k ∧
    ∀ p, p ≠ .DT → p ≠ .ST → Unchanged p s (history s (List.replicate k .tick))) ∧
  (∀ (s : State) (acts : Nat → Action), TicksKeepOccurring acts →
    (∀ n, acts n = .step → (run s acts (n + 1)).DT = (run s acts n).DT) →
      ∃ n, ∀ m, n ≤ m → (run s acts m).DT = 0) ∧
  (∀ (s : State) (acts : Nat → Action), TicksKeepOccurring acts →
    (∀ n, acts n = .step → (run s acts (n + 1)).ST = (run s acts n).ST) →
      ∃ n, ∀ m, n ≤ m → (run s acts m).ST = 0)

/-- After LD ST, Vx the sound is on for exactly as many ticks as Vx says (10_state.md section 5 and 44_keys_timers.md,
Fx18; decisions D21 and D22, logs 6 and 22). -/
def Obligations.SoundLastsAsManyTicksAsVx : Prop :=
  ∀ (x : Nibble) (s : State), ∃ t, exec (.ldStVx x) s = .next t ∧
    ∀ k : Nat, soundOn (history t (List.replicate k .tick)) = decide (k < (s.getV x).toNat)

/-! ### Faults and the Halted status -/

/-- A step that faults has committed nothing but its record, whose pc_fetch is the pc the step began with
(60_exceptions.md section 1, decision D5, log 12). -/
def Obligations.FaultingStepCommitsOnlyTheRecord : Prop :=
  ∀ (s t : State) (r : FaultRecord), s.status = .running → step s = .next t → t.status = .halted r →
    r.pcFetch = some s.pc ∧ ∀ p, p ≠ .status → Unchanged p s t

/-- Which instructions raise which fault: RET underflow, CALL overflow, and an address out of range only the four that
reach memory through I; every other instruction completes in every state, its status unchanged (60_exceptions.md
section 2; decision D27, log 12). -/
def Obligations.OnlyTheListedInstructionsFault : Prop :=
  (∀ (i : Instr) (s t : State) (r : FaultRecord), s.status = .running → exec i s = .next t → t.status = .halted r →
    (r.kind = .stackUnderflow ∧ i = .ret) ∨ (r.kind = .stackOverflow ∧ ∃ nnn, i = .call nnn) ∨
    (r.kind = .outOfRangeAddress ∧ accessCount i ≠ 0)) ∧
  (∀ (i : Instr) (s : State), i ≠ .ret → (∀ nnn, i ≠ .call nnn) → accessCount i = 0 →
    ∃ t, exec i s = .next t ∧ t.status = s.status)

/-- Halted is sticky: whatever the driver does short of a new session, the record stays, every step answers it again,
and only the timers move (60_exceptions.md section 1, decision D6; logs 3 and 6). -/
def Obligations.HaltedIsSticky : Prop :=
  ∀ (s : State) (r : FaultRecord) (as : List Action), s.status = .halted r →
    step (history s as) = .fault (.halted r) ∧ stepCall (history s as) = (history s as, .fault r) ∧
    ∀ p, p ≠ .DT → p ≠ .ST → Unchanged p s (history s as)

/-! ### Reset, load and sessions -/

/-- What reset leaves (70_reset_and_hazards.md section 1; the display is decision D10, log 11; the default font bytes are
decision D32, log 10; the query count is the model's own field and not stated), and what a reset with any value of the
parameter `FONT` leaves: its 80 bytes at 0x050, zero elsewhere, and every other part as before. -/
def Obligations.ResetLeavesTheStatedValues : Prop :=
  (∀ x, State.reset.getV x = 0) ∧ State.reset.pc = 0x200 ∧ State.reset.I = 0 ∧ State.reset.stack = [] ∧
  State.reset.DT = 0 ∧ State.reset.ST = 0 ∧ State.reset.status = .running ∧
  (∀ px py, fbGet State.reset.fb px py = false) ∧
  (∀ a, ¬ (0x050 ≤ a ∧ a ≤ 0x09F) → Memory.get State.reset.mem a = 0) ∧
  (∀ k, k < 80 → Memory.get State.reset.mem (0x050 + k) = Config.font.getD k 0) ∧
  Config.font.length = 80 ∧
  State.resetWith params.font = State.reset ∧
  ∀ font : Font,
    (∀ (k : Nat) (h : k < 80), Memory.get (State.resetWith font).mem (0x050 + k) = font[k]) ∧
    (∀ a, ¬ (0x050 ≤ a ∧ a ≤ 0x09F) → Memory.get (State.resetWith font).mem a = 0) ∧
    ∀ p, (∀ a, p ≠ .byte a) → Unchanged p State.reset (State.resetWith font)

/-- A session starts with the image at 0x200, the font at 0x050 and zero elsewhere, Running, and its load hands back Ok;
the load of an image that does not fit halts the engine with OutOfRangeAddress(0x1000), writes nothing and hands back
that fault. Both for every value of the parameter `FONT`, of which this machine has the default
(70_reset_and_hazards.md sections 1 and 4, 10_state.md section 10, 20_memory.md section 2; decisions D28 and D32, logs
10 and 14). -/
def Obligations.SessionStartsWithTheImageLoaded : Prop :=
  (∀ (font : Font) (image : List Byte), image.length ≤ 3584 →
    load image (State.resetWith font) = (newSessionWith font image, .ok) ∧
    (newSessionWith font image).status = .running ∧ (newSessionWith font image).pc = 0x200 ∧
    (∀ k, k < image.length → Memory.get (newSessionWith font image).mem (0x200 + k) = image.getD k 0) ∧
    (∀ (k : Nat) (h : k < 80), Memory.get (newSessionWith font image).mem (0x050 + k) = font[k]) ∧
    (∀ a, ¬ (0x050 ≤ a ∧ a ≤ 0x09F) → ¬ (0x200 ≤ a ∧ a < 0x200 + image.length) →
      Memory.get (newSessionWith font image).mem a = 0)) ∧
  (∀ (font : Font) (image : List Byte), 3584 < image.length →
    load image (State.resetWith font) =
      (newSessionWith font image, .fault ⟨.outOfRangeAddress, none, none, some 0x1000⟩) ∧
    newSessionWith font image =
      { State.resetWith font with status := .halted ⟨.outOfRangeAddress, none, none, some 0x1000⟩ }) ∧
  ∀ image : List Byte, newSession image = newSessionWith params.font image

/-- The first step of a session fetches the image's first two bytes as a word, high byte first, and runs it; bytes the
image does not have are zero, and with an empty image the step fetches 0x0000 at 0x200 and raises InvalidOpcode
(70_reset_and_hazards.md sections 1 and 2, decision D28, log 14). -/
def Obligations.FirstStepRunsTheImagesFirstWord : Prop :=
  (∀ (font : Font) (image : List Byte), image.length ≤ 3584 →
    fetch (newSessionWith font image) = .ok (image.getD 0 0 ++ image.getD 1 0) ∧
    ∀ i : Instr, decodeWord (image.getD 0 0 ++ image.getD 1 0) = .ok i →
      step (newSessionWith font image) = exec i (newSessionWith font image)) ∧
  stepCall (newSession []) =
    ({ State.reset with status := .halted ⟨.invalidOpcode, some 0x200, some 0x0000, none⟩ },
      .fault ⟨.invalidOpcode, some 0x200, some 0x0000, none⟩)

/-- In a final state (Running at a jump to itself) a step changes nothing, and any history leaves all but the timers
unchanged; in an infinite history in which ticks keep occurring both timers reach 0 and stay there
(70_reset_and_hazards.md section 3, 10_state.md section 5; decisions D21 and D26, logs 6 and 30). -/
def Obligations.FinalStateIsAFixedPoint : Prop :=
  ∀ s : State, isFinal s = true → step s = .next s ∧
    (∀ as : List Action, (∀ p, p ≠ .DT → p ≠ .ST → Unchanged p s (history s as)) ∧ isFinal (history s as) = true) ∧
    ∀ acts : Nat → Action,
      (∀ n, (∀ p, p ≠ .DT → p ≠ .ST → Unchanged p s (run s acts n)) ∧ isFinal (run s acts n) = true) ∧
      (TicksKeepOccurring acts → ∃ n, ∀ m, n ≤ m → (run s acts m).DT = 0 ∧ (run s acts m).ST = 0)

/-! ### Invariants and whole-machine rules -/

/-- The state after reset satisfies the invariant. -/
def Obligations.ResetSatisfiesTheInvariant : Prop := MachineInv State.reset

/-- Every step keeps the invariant: memory in canonical form (log 13), pc at most 0x10FE, at most 16 return addresses of
at most 0x1000 each, and a halted pc that is its record's fetch address (10_state.md sections 2 and 4, 40_control_flow.md
RET, 60_exceptions.md section 1; decisions D2, D5 and D8, logs 7, 12 and 18). -/
def Obligations.StepKeepsTheInvariant : Prop :=
  ∀ s t : State, MachineInv s → step s = .next t → MachineInv t

/-- Every state of every session, under any finite or infinite interleaving of steps, ticks and snapshots and with any
value of the parameter `FONT`, satisfies the invariant (10_state.md sections 2, 4 and 5; decisions D2, D5, D8 and D21,
logs 6, 7, 10, 12, 13 and 18). -/
def Obligations.ReachableStatesSatisfyTheInvariant : Prop :=
  (∀ s : State, Reachable s → MachineInv s) ∧
  ∀ (s : State) (acts : Nat → Action) (n : Nat), Reachable s → Reachable (run s acts n)

/-- Who writes what: the stack, I, the timers, memory and the query count each change only through the instructions the
spec lists as their writers (10_state.md sections 3, 4, 5 and 8, 20_memory.md section 3; I under decision D17, log 9;
the query count is the model's own field, log 2). -/
def Obligations.OnlyTheListedWritersWrite : Prop :=
  ∀ (i : Instr) (s t : State), exec i s = .next t →
    (t.stack ≠ s.stack → i = .ret ∨ ∃ nnn, i = .call nnn) ∧
    (t.I ≠ s.I → (∃ nnn, i = .ldI nnn) ∨ (∃ x, i = .addIVx x) ∨ (∃ x, i = .ldFVx x)) ∧
    (t.DT ≠ s.DT → ∃ x, i = .ldDtVx x) ∧
    (t.ST ≠ s.ST → ∃ x, i = .ldStVx x) ∧
    (t.mem ≠ s.mem → (∃ x, i = .ldBVx x) ∨ (∃ x, i = .ldMemVx x)) ∧
    (t.draws ≠ s.draws → (∃ x nn, i = .rnd x nn) ∨ (∃ x, i = .skp x) ∨ (∃ x, i = .sknp x) ∨ (∃ x, i = .ldVxK x))

/-- VF changes only as the flag of its listed writers or by being named as a destination (10_state.md section 6;
decisions D18 and D19, log 20). -/
def Obligations.OnlyFlagWritersTouchVF : Prop :=
  ∀ (i : Instr) (s t : State), exec i s = .next t → t.getV 0xF ≠ s.getV 0xF →
    (∃ x y, i = .addReg x y ∨ i = .sub x y ∨ i = .subn x y ∨ i = .shr x y ∨ i = .shl x y) ∨
    (∃ x y n, i = .drw x y n) ∨
    (∃ nn, i = .ldImm 0xF nn ∨ i = .addImm 0xF nn ∨ i = .rnd 0xF nn) ∨
    (∃ y, i = .ldReg 0xF y ∨ i = .orReg 0xF y ∨ i = .andReg 0xF y ∨ i = .xorReg 0xF y) ∨
    i = .ldVxDt 0xF ∨ i = .ldVxK 0xF ∨ i = .ldVxMem 0xF

/-- No instruction reads ST: two states that differ in ST alone go to states that differ in ST alone (10_state.md
section 5). -/
def Obligations.NoInstructionReadsTheSoundTimer : Prop :=
  ∀ (i : Instr) (s t : State) (b : Byte), exec i s = .next t →
    ∃ u, exec i (s.setST b) = .next u ∧ u.setST 0 = t.setST 0

/-- No instruction reads the status: two states that differ in status alone go to states that differ in status alone
(10_state.md sections 7 and 11). -/
def Obligations.NoInstructionReadsTheStatus : Prop :=
  ∀ (i : Instr) (s t : State) (st : Status), exec i s = .next t →
    ∃ u, exec i (s.setStatus st) = .next u ∧ u.setStatus .running = t.setStatus .running
end

