-- ==== Sys2Proof/Laws/Display.lean ====
section
/-! SUPPORT. The laws of the display: reading a cell after a write, and what the loops of the sprite draw do to a cell
and to the collision flag (10_state.md R51, 42_display.md R181). -/

namespace Sys2Proof.Machine

/-- Reading a cell after writing one. -/
theorem fbGet_fbSet (g : Grid) (x px : Fin 64) (y py : Fin 32) (b : Bool) :
    fbGet (fbSet g x y b) px py = if px = x ∧ py = y then b else fbGet g px py := by
  simp only [fbGet, fbSet, Vector.getElem_set, Fin.ext_iff]
  by_cases hx : x.val = px.val
  · simp only [hx, if_true, Vector.getElem_set]
    by_cases hy : y.val = py.val <;> simp [hy, eq_comm]
  · simp [hx, Ne.symm hx]

@[simp] theorem fbGet_fbClear (px : Fin 64) (py : Fin 32) : fbGet fbClear px py = false := by
  simp [fbGet, fbClear]

/-- Toggling flips the one cell. -/
theorem fbGet_fbToggle (g : Grid) (x px : Fin 64) (y py : Fin 32) :
    fbGet (fbToggle g x y).1 px py = (fbGet g px py ^^ decide (px = x ∧ py = y)) := by
  simp only [fbToggle, fbGet_fbSet]
  by_cases h : px = x ∧ py = y
  · obtain ⟨rfl, rfl⟩ := h; simp
  · simp [h]

/-- A sprite bit of value 1 at (qx, qy): the cell there, if it is in the grid, is flipped. -/
theorem drawPixel_cell (qx qy : Nat) (d : Grid × Bool) (px : Fin 64) (py : Fin 32) :
    fbGet (drawPixel qx qy d).1 px py = (fbGet d.1 px py ^^ decide (px.val = qx ∧ py.val = qy)) := by
  unfold drawPixel
  split
  · simp only [fbGet_fbToggle, Fin.ext_iff]
  · rename_i h
    have : ¬ (px.val = qx ∧ py.val = qy) := by rintro ⟨rfl, rfl⟩; exact h ⟨px.isLt, py.isLt⟩
    simp [this]

/-- A sprite bit of value 1 at (qx, qy): the flag is set if a cell there is ON, and never cleared. -/
theorem drawPixel_flag (qx qy : Nat) (d : Grid × Bool) :
    (drawPixel qx qy d).2 = true ↔
      d.2 = true ∨ ∃ (px : Fin 64) (py : Fin 32), px.val = qx ∧ py.val = qy ∧ fbGet d.1 px py = true := by
  unfold drawPixel
  split
  · rename_i h
    simp only [Bool.or_eq_true]
    refine or_congr_right ⟨fun hg => ⟨_, _, rfl, rfl, hg⟩, ?_⟩
    rintro ⟨px, py, rfl, rfl, hg⟩; exact hg
  · rename_i h
    refine ⟨Or.inl, ?_⟩
    rintro (hd | ⟨px, py, rfl, rfl, -⟩)
    · exact hd
    · exact absurd ⟨px.isLt, py.isLt⟩ h

/-- One sprite row, over any columns without repeats: each cell of the row is XORed with the row's bit there. -/
theorem drawCols_cell (row : Byte) (x0 qy : Nat) (cs : List Nat) (hn : cs.Nodup) (d : Grid × Bool)
    (px : Fin 64) (py : Fin 32) :
    fbGet (drawCols row x0 qy cs d).1 px py =
      (fbGet d.1 px py ^^ decide (py.val = qy ∧ ∃ c ∈ cs, row.getLsbD (7 - c) = true ∧ px.val = x0 + c)) := by
  induction cs generalizing d with
  | nil => simp [drawCols]
  | cons c cs ih =>
    rw [List.nodup_cons] at hn
    rw [drawCols, ih hn.2]
    have hc : ∀ d' ∈ cs, d' ≠ c := fun d' h e => hn.1 (e ▸ h)
    by_cases hb : row.getLsbD (7 - c) = true
    · rw [if_pos hb, drawPixel_cell]
      by_cases hp : px.val = x0 + c ∧ py.val = qy
      · have h1 : ¬ (py.val = qy ∧ ∃ c' ∈ cs, row.getLsbD (7 - c') = true ∧ px.val = x0 + c') := by
          rintro ⟨-, c', hm, -, e⟩; exact hc c' hm (by omega)
        have h2 : py.val = qy ∧ ∃ c' ∈ c :: cs, row.getLsbD (7 - c') = true ∧ px.val = x0 + c' :=
          ⟨hp.2, c, by simp, hb, hp.1⟩
        rw [decide_eq_true hp, decide_eq_false h1, decide_eq_true h2]; simp
      · have : (py.val = qy ∧ ∃ c' ∈ c :: cs, row.getLsbD (7 - c') = true ∧ px.val = x0 + c') ↔
            (py.val = qy ∧ ∃ c' ∈ cs, row.getLsbD (7 - c') = true ∧ px.val = x0 + c') := by
          refine and_congr_right fun hy => ⟨?_, fun ⟨c', hm, h⟩ => ⟨c', by simp [hm], h⟩⟩
          rintro ⟨c', hm, h, e⟩
          rcases List.mem_cons.1 hm with rfl | hm
          · exact absurd ⟨e, hy⟩ hp
          · exact ⟨c', hm, h, e⟩
        simp only [decide_eq_false hp, this, Bool.xor_false]
    · have : (py.val = qy ∧ ∃ c' ∈ c :: cs, row.getLsbD (7 - c') = true ∧ px.val = x0 + c') ↔
          (py.val = qy ∧ ∃ c' ∈ cs, row.getLsbD (7 - c') = true ∧ px.val = x0 + c') := by
        refine and_congr_right fun hy => ⟨?_, fun ⟨c', hm, h⟩ => ⟨c', by simp [hm], h⟩⟩
        rintro ⟨c', hm, h, e⟩
        rcases List.mem_cons.1 hm with rfl | hm
        · exact absurd h hb
        · exact ⟨c', hm, h, e⟩
      simp only [if_neg hb, this]

/-- One sprite row, over any columns without repeats: the flag is set exactly if one of the row's bits meets a cell that
was ON when the row began. -/
theorem drawCols_flag (row : Byte) (x0 qy : Nat) (cs : List Nat) (hn : cs.Nodup) (d : Grid × Bool) :
    (drawCols row x0 qy cs d).2 = true ↔
      d.2 = true ∨ ∃ (px : Fin 64) (py : Fin 32), (py.val = qy ∧ ∃ c ∈ cs, row.getLsbD (7 - c) = true ∧ px.val = x0 + c) ∧
        fbGet d.1 px py = true := by
  induction cs generalizing d with
  | nil => simp [drawCols]
  | cons c cs ih =>
    rw [List.nodup_cons] at hn
    rw [drawCols, ih hn.2]
    have hc : ∀ d' ∈ cs, d' ≠ c := fun d' h e => hn.1 (e ▸ h)
    by_cases hb : row.getLsbD (7 - c) = true
    · rw [if_pos hb]
      have key : ∀ (px : Fin 64) (py : Fin 32), (∃ c' ∈ cs, row.getLsbD (7 - c') = true ∧ px.val = x0 + c') →
          fbGet (drawPixel (x0 + c) qy d).1 px py = fbGet d.1 px py := by
        rintro px py ⟨c', hm, -, e⟩
        have : ¬ (px.val = x0 + c ∧ py.val = qy) := fun h => hc c' hm (by omega)
        rw [drawPixel_cell, decide_eq_false this, Bool.xor_false]
      constructor
      · rintro (h | ⟨px, py, ⟨hy, hx⟩, hg⟩)
        · rcases (drawPixel_flag _ _ _).1 h with h | ⟨px, py, hx, hy, hg⟩
          · exact Or.inl h
          · exact Or.inr ⟨px, py, ⟨hy, c, by simp, hb, hx⟩, hg⟩
        · rw [key px py hx] at hg
          obtain ⟨c', hm, h⟩ := hx
          exact Or.inr ⟨px, py, ⟨hy, c', by simp [hm], h⟩, hg⟩
      · rintro (h | ⟨px, py, ⟨hy, c', hm, h, e⟩, hg⟩)
        · exact Or.inl ((drawPixel_flag _ _ _).2 (Or.inl h))
        · rcases List.mem_cons.1 hm with rfl | hm
          · exact Or.inl ((drawPixel_flag _ _ _).2 (Or.inr ⟨px, py, e, hy, hg⟩))
          · exact Or.inr ⟨px, py, ⟨hy, c', hm, h, e⟩, by rw [key px py ⟨c', hm, h, e⟩]; exact hg⟩
    · rw [if_neg hb]
      refine or_congr_right ⟨?_, ?_⟩
      · rintro ⟨px, py, ⟨hy, c', hm, h⟩, hg⟩; exact ⟨px, py, ⟨hy, c', by simp [hm], h⟩, hg⟩
      · rintro ⟨px, py, ⟨hy, c', hm, h, e⟩, hg⟩
        rcases List.mem_cons.1 hm with rfl | hm
        · exact absurd h hb
        · exact ⟨px, py, ⟨hy, c', hm, h, e⟩, hg⟩

/-- Column `c` of a sprite row is a cell's column, said by the cell: the eight columns of the draw. -/
theorem drawCols_column (row : Byte) (x0 : Nat) (px : Fin 64) :
    (∃ c ∈ [0, 1, 2, 3, 4, 5, 6, 7], row.getLsbD (7 - c) = true ∧ px.val = x0 + c) ↔
      x0 ≤ px.val ∧ px.val < x0 + 8 ∧ row.getLsbD (7 - (px.val - x0)) = true := by
  constructor
  · rintro ⟨c, hm, h, e⟩
    have hc : c < 8 := by
      simp only [List.mem_cons, List.not_mem_nil, or_false] at hm; omega
    have : px.val - x0 = c := by omega
    exact ⟨by omega, by omega, by rw [this]; exact h⟩
  · rintro ⟨h1, h2, h⟩
    refine ⟨px.val - x0, ?_, h, by omega⟩
    simp only [List.mem_cons, List.not_mem_nil, or_false]; omega

/-- The bit that the rows `rows`, drawn from (x0, y0) on, have at a cell. -/
def rowsBit (rows : List Byte) (x0 y0 : Nat) (px : Fin 64) (py : Fin 32) : Bool :=
  decide (x0 ≤ px.val ∧ px.val < x0 + 8 ∧ y0 ≤ py.val ∧ py.val < y0 + rows.length) &&
    (rows.getD (py.val - y0) 0).getLsbD (7 - (px.val - x0))

theorem rowsBit_cons (row : Byte) (rows : List Byte) (x0 y0 : Nat) (px : Fin 64) (py : Fin 32) :
    rowsBit (row :: rows) x0 y0 px py =
      if py.val = y0 then decide (x0 ≤ px.val ∧ px.val < x0 + 8) && row.getLsbD (7 - (px.val - x0))
      else rowsBit rows x0 (y0 + 1) px py := by
  unfold rowsBit
  by_cases h : py.val = y0
  · rw [if_pos h]
    have e : py.val - y0 = 0 := by omega
    rw [e]
    congr 1
    rw [decide_eq_decide]; simp only [List.length_cons]; omega
  · rw [if_neg h]
    by_cases h2 : y0 + 1 ≤ py.val
    · obtain ⟨k, hk⟩ : ∃ k, py.val = y0 + 1 + k := ⟨py.val - (y0 + 1), by omega⟩
      have e1 : py.val - y0 = k + 1 := by omega
      have e2 : py.val - (y0 + 1) = k := by omega
      rw [e1, e2, List.getD_cons_succ]
      congr 1
      rw [decide_eq_decide]; simp only [List.length_cons]; omega
    · have f1 : ¬ (x0 ≤ px.val ∧ px.val < x0 + 8 ∧ y0 ≤ py.val ∧ py.val < y0 + (row :: rows).length) := by omega
      have f2 : ¬ (x0 ≤ px.val ∧ px.val < x0 + 8 ∧ y0 + 1 ≤ py.val ∧ py.val < y0 + 1 + rows.length) := by omega
      rw [decide_eq_false f1, decide_eq_false f2]; rfl

/-- What a first row does to a cell, in the terms of `rowsBit`. -/
theorem drawCols_rowsBit (row : Byte) (x0 y0 : Nat) (px : Fin 64) (py : Fin 32) :
    (py.val = y0 ∧ ∃ c ∈ [0, 1, 2, 3, 4, 5, 6, 7], row.getLsbD (7 - c) = true ∧ px.val = x0 + c) ↔
      (py.val = y0 ∧ (decide (x0 ≤ px.val ∧ px.val < x0 + 8) && row.getLsbD (7 - (px.val - x0))) = true) := by
  rw [drawCols_column, Bool.and_eq_true, decide_eq_true_iff]; tauto

/-- All rows: every cell is XORed with the sprite's bit there. -/
theorem drawRows_cell (rows : List Byte) (x0 y0 : Nat) (d : Grid × Bool) (px : Fin 64) (py : Fin 32) :
    fbGet (drawRows x0 y0 rows d).1 px py = (fbGet d.1 px py ^^ rowsBit rows x0 y0 px py) := by
  induction rows generalizing y0 d with
  | nil =>
    have : ¬ (x0 ≤ px.val ∧ px.val < x0 + 8 ∧ y0 ≤ py.val ∧ py.val < y0 + ([] : List Byte).length) := by simp
    rw [drawRows, rowsBit, decide_eq_false this]; simp
  | cons row rows ih =>
    rw [drawRows, ih, drawCols_cell _ _ _ _ (by decide), rowsBit_cons]
    simp only [drawCols_rowsBit]
    by_cases h : py.val = y0
    · have f : ¬ (x0 ≤ px.val ∧ px.val < x0 + 8 ∧ y0 + 1 ≤ py.val ∧ py.val < y0 + 1 + rows.length) := by omega
      rw [rowsBit, decide_eq_false f, if_pos h]; simp [h]
    · rw [if_neg h]; simp [h]

/-- All rows: the flag is set exactly if some sprite bit meets a cell that was ON when the draw began. -/
theorem drawRows_flag (rows : List Byte) (x0 y0 : Nat) (d : Grid × Bool) :
    (drawRows x0 y0 rows d).2 = true ↔
      d.2 = true ∨ ∃ px py, rowsBit rows x0 y0 px py = true ∧ fbGet d.1 px py = true := by
  induction rows generalizing y0 d with
  | nil =>
    rw [drawRows]
    refine ⟨Or.inl, ?_⟩
    rintro (h | ⟨px, py, h, -⟩)
    · exact h
    · simp only [rowsBit, List.length_nil, Bool.and_eq_true, decide_eq_true_iff] at h; omega
  | cons row rows ih =>
    have hcell : ∀ (px : Fin 64) (py : Fin 32), rowsBit rows x0 (y0 + 1) px py = true →
        py.val ≠ y0 ∧ fbGet (drawCols row x0 y0 [0, 1, 2, 3, 4, 5, 6, 7] d).1 px py = fbGet d.1 px py := by
      intro px py h
      have hy : py.val ≠ y0 := by
        simp only [rowsBit, Bool.and_eq_true, decide_eq_true_iff] at h; omega
      refine ⟨hy, ?_⟩
      rw [drawCols_cell _ _ _ _ (by decide)]; simp [hy]
    rw [drawRows, ih, drawCols_flag _ _ _ _ (by decide), or_assoc]
    refine or_congr_right ⟨?_, ?_⟩
    · rintro (⟨px, py, h, hg⟩ | ⟨px, py, h, hg⟩)
      · rw [drawCols_rowsBit] at h
        exact ⟨px, py, by rw [rowsBit_cons, if_pos h.1]; exact h.2, hg⟩
      · obtain ⟨hy, e⟩ := hcell px py h
        exact ⟨px, py, by rw [rowsBit_cons, if_neg hy]; exact h, by rw [← e]; exact hg⟩
    · rintro ⟨px, py, h, hg⟩
      rw [rowsBit_cons] at h
      by_cases hy : py.val = y0
      · rw [if_pos hy] at h
        exact Or.inl ⟨px, py, (drawCols_rowsBit row x0 y0 px py).2 ⟨hy, h⟩, hg⟩
      · rw [if_neg hy] at h
        obtain ⟨-, e⟩ := hcell px py h
        exact Or.inr ⟨px, py, h, by rw [e]; exact hg⟩

end Sys2Proof.Machine
end

