-- ==== Sys2Proof/Laws/State.lean ====
section
/-! SUPPORT. What each update of the state leaves in each field, one lemma per field per update, so that no proof
unfolds a record update; and what reading a register after a register write gives. -/

namespace Sys2Proof.Machine

variable (s : State)

/-! ### `setV` -/

@[simp] theorem State.setV_V (x : Nibble) (b : Byte) : (s.setV x b).V = s.V.set x.toNat b x.isLt := rfl
@[simp] theorem State.setV_pc (x : Nibble) (b : Byte) : (s.setV x b).pc = s.pc := rfl
@[simp] theorem State.setV_I (x : Nibble) (b : Byte) : (s.setV x b).I = s.I := rfl
@[simp] theorem State.setV_stack (x : Nibble) (b : Byte) : (s.setV x b).stack = s.stack := rfl
@[simp] theorem State.setV_DT (x : Nibble) (b : Byte) : (s.setV x b).DT = s.DT := rfl
@[simp] theorem State.setV_ST (x : Nibble) (b : Byte) : (s.setV x b).ST = s.ST := rfl
@[simp] theorem State.setV_mem (x : Nibble) (b : Byte) : (s.setV x b).mem = s.mem := rfl
@[simp] theorem State.setV_fb (x : Nibble) (b : Byte) : (s.setV x b).fb = s.fb := rfl
@[simp] theorem State.setV_status (x : Nibble) (b : Byte) : (s.setV x b).status = s.status := rfl
@[simp] theorem State.setV_draws (x : Nibble) (b : Byte) : (s.setV x b).draws = s.draws := rfl

/-! ### `setRegs` -/

@[simp] theorem State.setRegs_V (V : Regs) : (s.setRegs V).V = V := rfl
@[simp] theorem State.setRegs_pc (V : Regs) : (s.setRegs V).pc = s.pc := rfl
@[simp] theorem State.setRegs_I (V : Regs) : (s.setRegs V).I = s.I := rfl
@[simp] theorem State.setRegs_stack (V : Regs) : (s.setRegs V).stack = s.stack := rfl
@[simp] theorem State.setRegs_DT (V : Regs) : (s.setRegs V).DT = s.DT := rfl
@[simp] theorem State.setRegs_ST (V : Regs) : (s.setRegs V).ST = s.ST := rfl
@[simp] theorem State.setRegs_mem (V : Regs) : (s.setRegs V).mem = s.mem := rfl
@[simp] theorem State.setRegs_fb (V : Regs) : (s.setRegs V).fb = s.fb := rfl
@[simp] theorem State.setRegs_status (V : Regs) : (s.setRegs V).status = s.status := rfl
@[simp] theorem State.setRegs_draws (V : Regs) : (s.setRegs V).draws = s.draws := rfl

/-! ### `setPc` -/

@[simp] theorem State.setPc_V (a : Addr) : (s.setPc a).V = s.V := rfl
@[simp] theorem State.setPc_pc (a : Addr) : (s.setPc a).pc = a := rfl
@[simp] theorem State.setPc_I (a : Addr) : (s.setPc a).I = s.I := rfl
@[simp] theorem State.setPc_stack (a : Addr) : (s.setPc a).stack = s.stack := rfl
@[simp] theorem State.setPc_DT (a : Addr) : (s.setPc a).DT = s.DT := rfl
@[simp] theorem State.setPc_ST (a : Addr) : (s.setPc a).ST = s.ST := rfl
@[simp] theorem State.setPc_mem (a : Addr) : (s.setPc a).mem = s.mem := rfl
@[simp] theorem State.setPc_fb (a : Addr) : (s.setPc a).fb = s.fb := rfl
@[simp] theorem State.setPc_status (a : Addr) : (s.setPc a).status = s.status := rfl
@[simp] theorem State.setPc_draws (a : Addr) : (s.setPc a).draws = s.draws := rfl
@[simp] theorem State.setPc_getV (a : Addr) (y : Nibble) : (s.setPc a).getV y = s.getV y := rfl

/-! ### `setI` -/

@[simp] theorem State.setI_V (a : Addr) : (s.setI a).V = s.V := rfl
@[simp] theorem State.setI_pc (a : Addr) : (s.setI a).pc = s.pc := rfl
@[simp] theorem State.setI_I (a : Addr) : (s.setI a).I = a := rfl
@[simp] theorem State.setI_stack (a : Addr) : (s.setI a).stack = s.stack := rfl
@[simp] theorem State.setI_DT (a : Addr) : (s.setI a).DT = s.DT := rfl
@[simp] theorem State.setI_ST (a : Addr) : (s.setI a).ST = s.ST := rfl
@[simp] theorem State.setI_mem (a : Addr) : (s.setI a).mem = s.mem := rfl
@[simp] theorem State.setI_fb (a : Addr) : (s.setI a).fb = s.fb := rfl
@[simp] theorem State.setI_status (a : Addr) : (s.setI a).status = s.status := rfl
@[simp] theorem State.setI_draws (a : Addr) : (s.setI a).draws = s.draws := rfl
@[simp] theorem State.setI_getV (a : Addr) (y : Nibble) : (s.setI a).getV y = s.getV y := rfl

/-! ### `setStack` -/

@[simp] theorem State.setStack_V (st : List Addr) : (s.setStack st).V = s.V := rfl
@[simp] theorem State.setStack_pc (st : List Addr) : (s.setStack st).pc = s.pc := rfl
@[simp] theorem State.setStack_I (st : List Addr) : (s.setStack st).I = s.I := rfl
@[simp] theorem State.setStack_stack (st : List Addr) : (s.setStack st).stack = st := rfl
@[simp] theorem State.setStack_DT (st : List Addr) : (s.setStack st).DT = s.DT := rfl
@[simp] theorem State.setStack_ST (st : List Addr) : (s.setStack st).ST = s.ST := rfl
@[simp] theorem State.setStack_mem (st : List Addr) : (s.setStack st).mem = s.mem := rfl
@[simp] theorem State.setStack_fb (st : List Addr) : (s.setStack st).fb = s.fb := rfl
@[simp] theorem State.setStack_status (st : List Addr) : (s.setStack st).status = s.status := rfl
@[simp] theorem State.setStack_draws (st : List Addr) : (s.setStack st).draws = s.draws := rfl
@[simp] theorem State.setStack_getV (st : List Addr) (y : Nibble) : (s.setStack st).getV y = s.getV y := rfl

/-! ### `setDT` -/

@[simp] theorem State.setDT_V (b : Byte) : (s.setDT b).V = s.V := rfl
@[simp] theorem State.setDT_pc (b : Byte) : (s.setDT b).pc = s.pc := rfl
@[simp] theorem State.setDT_I (b : Byte) : (s.setDT b).I = s.I := rfl
@[simp] theorem State.setDT_stack (b : Byte) : (s.setDT b).stack = s.stack := rfl
@[simp] theorem State.setDT_DT (b : Byte) : (s.setDT b).DT = b := rfl
@[simp] theorem State.setDT_ST (b : Byte) : (s.setDT b).ST = s.ST := rfl
@[simp] theorem State.setDT_mem (b : Byte) : (s.setDT b).mem = s.mem := rfl
@[simp] theorem State.setDT_fb (b : Byte) : (s.setDT b).fb = s.fb := rfl
@[simp] theorem State.setDT_status (b : Byte) : (s.setDT b).status = s.status := rfl
@[simp] theorem State.setDT_draws (b : Byte) : (s.setDT b).draws = s.draws := rfl
@[simp] theorem State.setDT_getV (b : Byte) (y : Nibble) : (s.setDT b).getV y = s.getV y := rfl

/-! ### `setST` -/

@[simp] theorem State.setST_V (b : Byte) : (s.setST b).V = s.V := rfl
@[simp] theorem State.setST_pc (b : Byte) : (s.setST b).pc = s.pc := rfl
@[simp] theorem State.setST_I (b : Byte) : (s.setST b).I = s.I := rfl
@[simp] theorem State.setST_stack (b : Byte) : (s.setST b).stack = s.stack := rfl
@[simp] theorem State.setST_DT (b : Byte) : (s.setST b).DT = s.DT := rfl
@[simp] theorem State.setST_ST (b : Byte) : (s.setST b).ST = b := rfl
@[simp] theorem State.setST_mem (b : Byte) : (s.setST b).mem = s.mem := rfl
@[simp] theorem State.setST_fb (b : Byte) : (s.setST b).fb = s.fb := rfl
@[simp] theorem State.setST_status (b : Byte) : (s.setST b).status = s.status := rfl
@[simp] theorem State.setST_draws (b : Byte) : (s.setST b).draws = s.draws := rfl
@[simp] theorem State.setST_getV (b : Byte) (y : Nibble) : (s.setST b).getV y = s.getV y := rfl

/-! ### `setMem` -/

@[simp] theorem State.setMem_V (m : Memory) : (s.setMem m).V = s.V := rfl
@[simp] theorem State.setMem_pc (m : Memory) : (s.setMem m).pc = s.pc := rfl
@[simp] theorem State.setMem_I (m : Memory) : (s.setMem m).I = s.I := rfl
@[simp] theorem State.setMem_stack (m : Memory) : (s.setMem m).stack = s.stack := rfl
@[simp] theorem State.setMem_DT (m : Memory) : (s.setMem m).DT = s.DT := rfl
@[simp] theorem State.setMem_ST (m : Memory) : (s.setMem m).ST = s.ST := rfl
@[simp] theorem State.setMem_mem (m : Memory) : (s.setMem m).mem = m := rfl
@[simp] theorem State.setMem_fb (m : Memory) : (s.setMem m).fb = s.fb := rfl
@[simp] theorem State.setMem_status (m : Memory) : (s.setMem m).status = s.status := rfl
@[simp] theorem State.setMem_draws (m : Memory) : (s.setMem m).draws = s.draws := rfl
@[simp] theorem State.setMem_getV (m : Memory) (y : Nibble) : (s.setMem m).getV y = s.getV y := rfl

/-! ### `setFb` -/

@[simp] theorem State.setFb_V (g : Grid) : (s.setFb g).V = s.V := rfl
@[simp] theorem State.setFb_pc (g : Grid) : (s.setFb g).pc = s.pc := rfl
@[simp] theorem State.setFb_I (g : Grid) : (s.setFb g).I = s.I := rfl
@[simp] theorem State.setFb_stack (g : Grid) : (s.setFb g).stack = s.stack := rfl
@[simp] theorem State.setFb_DT (g : Grid) : (s.setFb g).DT = s.DT := rfl
@[simp] theorem State.setFb_ST (g : Grid) : (s.setFb g).ST = s.ST := rfl
@[simp] theorem State.setFb_mem (g : Grid) : (s.setFb g).mem = s.mem := rfl
@[simp] theorem State.setFb_fb (g : Grid) : (s.setFb g).fb = g := rfl
@[simp] theorem State.setFb_status (g : Grid) : (s.setFb g).status = s.status := rfl
@[simp] theorem State.setFb_draws (g : Grid) : (s.setFb g).draws = s.draws := rfl
@[simp] theorem State.setFb_getV (g : Grid) (y : Nibble) : (s.setFb g).getV y = s.getV y := rfl

/-! ### `setStatus` -/

@[simp] theorem State.setStatus_V (st : Status) : (s.setStatus st).V = s.V := rfl
@[simp] theorem State.setStatus_pc (st : Status) : (s.setStatus st).pc = s.pc := rfl
@[simp] theorem State.setStatus_I (st : Status) : (s.setStatus st).I = s.I := rfl
@[simp] theorem State.setStatus_stack (st : Status) : (s.setStatus st).stack = s.stack := rfl
@[simp] theorem State.setStatus_DT (st : Status) : (s.setStatus st).DT = s.DT := rfl
@[simp] theorem State.setStatus_ST (st : Status) : (s.setStatus st).ST = s.ST := rfl
@[simp] theorem State.setStatus_mem (st : Status) : (s.setStatus st).mem = s.mem := rfl
@[simp] theorem State.setStatus_fb (st : Status) : (s.setStatus st).fb = s.fb := rfl
@[simp] theorem State.setStatus_status (st : Status) : (s.setStatus st).status = st := rfl
@[simp] theorem State.setStatus_draws (st : Status) : (s.setStatus st).draws = s.draws := rfl
@[simp] theorem State.setStatus_getV (st : Status) (y : Nibble) : (s.setStatus st).getV y = s.getV y := rfl

/-! ### `countDraw` -/

@[simp] theorem State.countDraw_V : s.countDraw.V = s.V := rfl
@[simp] theorem State.countDraw_pc : s.countDraw.pc = s.pc := rfl
@[simp] theorem State.countDraw_I : s.countDraw.I = s.I := rfl
@[simp] theorem State.countDraw_stack : s.countDraw.stack = s.stack := rfl
@[simp] theorem State.countDraw_DT : s.countDraw.DT = s.DT := rfl
@[simp] theorem State.countDraw_ST : s.countDraw.ST = s.ST := rfl
@[simp] theorem State.countDraw_mem : s.countDraw.mem = s.mem := rfl
@[simp] theorem State.countDraw_fb : s.countDraw.fb = s.fb := rfl
@[simp] theorem State.countDraw_status : s.countDraw.status = s.status := rfl
@[simp] theorem State.countDraw_draws : s.countDraw.draws = s.draws + 1 := rfl
@[simp] theorem State.countDraw_getV (y : Nibble) : s.countDraw.getV y = s.getV y := rfl

/-! ### `advance` -/

@[simp] theorem State.advance_V : s.advance.V = s.V := rfl
@[simp] theorem State.advance_pc : s.advance.pc = s.pc + 2 := rfl
@[simp] theorem State.advance_I : s.advance.I = s.I := rfl
@[simp] theorem State.advance_stack : s.advance.stack = s.stack := rfl
@[simp] theorem State.advance_DT : s.advance.DT = s.DT := rfl
@[simp] theorem State.advance_ST : s.advance.ST = s.ST := rfl
@[simp] theorem State.advance_mem : s.advance.mem = s.mem := rfl
@[simp] theorem State.advance_fb : s.advance.fb = s.fb := rfl
@[simp] theorem State.advance_status : s.advance.status = s.status := rfl
@[simp] theorem State.advance_draws : s.advance.draws = s.draws := rfl
@[simp] theorem State.advance_getV (y : Nibble) : s.advance.getV y = s.getV y := rfl

/-! ### `skipIf` -/

@[simp] theorem State.skipIf_V (c : Bool) : (s.skipIf c).V = s.V := rfl
@[simp] theorem State.skipIf_pc (c : Bool) : (s.skipIf c).pc = if c then s.pc + 2 else s.pc := rfl
@[simp] theorem State.skipIf_I (c : Bool) : (s.skipIf c).I = s.I := rfl
@[simp] theorem State.skipIf_stack (c : Bool) : (s.skipIf c).stack = s.stack := rfl
@[simp] theorem State.skipIf_DT (c : Bool) : (s.skipIf c).DT = s.DT := rfl
@[simp] theorem State.skipIf_ST (c : Bool) : (s.skipIf c).ST = s.ST := rfl
@[simp] theorem State.skipIf_mem (c : Bool) : (s.skipIf c).mem = s.mem := rfl
@[simp] theorem State.skipIf_fb (c : Bool) : (s.skipIf c).fb = s.fb := rfl
@[simp] theorem State.skipIf_status (c : Bool) : (s.skipIf c).status = s.status := rfl
@[simp] theorem State.skipIf_draws (c : Bool) : (s.skipIf c).draws = s.draws := rfl
@[simp] theorem State.skipIf_getV (c : Bool) (y : Nibble) : (s.skipIf c).getV y = s.getV y := rfl

/-! ### `setFlag` -/

@[simp] theorem State.setFlag_V (f : Bool) : (s.setFlag f).V = s.V.set 15 (flagByte f) := rfl
@[simp] theorem State.setFlag_pc (f : Bool) : (s.setFlag f).pc = s.pc := rfl
@[simp] theorem State.setFlag_I (f : Bool) : (s.setFlag f).I = s.I := rfl
@[simp] theorem State.setFlag_stack (f : Bool) : (s.setFlag f).stack = s.stack := rfl
@[simp] theorem State.setFlag_DT (f : Bool) : (s.setFlag f).DT = s.DT := rfl
@[simp] theorem State.setFlag_ST (f : Bool) : (s.setFlag f).ST = s.ST := rfl
@[simp] theorem State.setFlag_mem (f : Bool) : (s.setFlag f).mem = s.mem := rfl
@[simp] theorem State.setFlag_fb (f : Bool) : (s.setFlag f).fb = s.fb := rfl
@[simp] theorem State.setFlag_status (f : Bool) : (s.setFlag f).status = s.status := rfl
@[simp] theorem State.setFlag_draws (f : Bool) : (s.setFlag f).draws = s.draws := rfl

/-! ### `setVFlag` -/

@[simp] theorem State.setVFlag_V (x : Nibble) (r : Byte) (f : Bool) : (s.setVFlag x r f).V = (s.V.set x.toNat r x.isLt).set 15 (flagByte f) := rfl
@[simp] theorem State.setVFlag_pc (x : Nibble) (r : Byte) (f : Bool) : (s.setVFlag x r f).pc = s.pc := rfl
@[simp] theorem State.setVFlag_I (x : Nibble) (r : Byte) (f : Bool) : (s.setVFlag x r f).I = s.I := rfl
@[simp] theorem State.setVFlag_stack (x : Nibble) (r : Byte) (f : Bool) : (s.setVFlag x r f).stack = s.stack := rfl
@[simp] theorem State.setVFlag_DT (x : Nibble) (r : Byte) (f : Bool) : (s.setVFlag x r f).DT = s.DT := rfl
@[simp] theorem State.setVFlag_ST (x : Nibble) (r : Byte) (f : Bool) : (s.setVFlag x r f).ST = s.ST := rfl
@[simp] theorem State.setVFlag_mem (x : Nibble) (r : Byte) (f : Bool) : (s.setVFlag x r f).mem = s.mem := rfl
@[simp] theorem State.setVFlag_fb (x : Nibble) (r : Byte) (f : Bool) : (s.setVFlag x r f).fb = s.fb := rfl
@[simp] theorem State.setVFlag_status (x : Nibble) (r : Byte) (f : Bool) : (s.setVFlag x r f).status = s.status := rfl
@[simp] theorem State.setVFlag_draws (x : Nibble) (r : Byte) (f : Bool) : (s.setVFlag x r f).draws = s.draws := rfl

/-! ### Registers -/

/-- Reading a register after writing one (R19). -/
theorem State.getV_setV (x y : Nibble) (b : Byte) : (s.setV x b).getV y = if y = x then b else s.getV y := by
  simp only [State.getV, State.setV, Vector.getElem_set, BitVec.toNat_inj, eq_comm]

@[simp] theorem State.getV_setV_same (x : Nibble) (b : Byte) : (s.setV x b).getV x = b := by
  simp [State.getV_setV]

theorem State.getV_setV_other (x y : Nibble) (b : Byte) (h : y ≠ x) : (s.setV x b).getV y = s.getV y := by
  simp [State.getV_setV, h]

/-- VF after a flag is the flag; every other register is unchanged. -/
theorem State.getV_setFlag (y : Nibble) (f : Bool) : (s.setFlag f).getV y = if y = vf then flagByte f else s.getV y := by
  simp only [State.setFlag, State.getV_setV]

/-- A result and a flag: VF holds the flag even when the result's register is VF (R38). -/
theorem State.getV_setVFlag (x y : Nibble) (r : Byte) (f : Bool) :
    (s.setVFlag x r f).getV y = if y = vf then flagByte f else if y = x then r else s.getV y := by
  simp only [State.setVFlag, State.getV_setFlag, State.getV_setV]

/-! ### `bumpI` -/

theorem bumpI_eq (p : Params) (x : Nibble) :
    bumpI p x s = s.setI (if p.loadStoreIncrementsI then s.I + x.setWidth 16 + 1 else s.I) := by
  unfold bumpI; split <;> rfl

@[simp] theorem bumpI_V (p : Params) (x : Nibble) : (bumpI p x s).V = s.V := by rw [bumpI_eq]; rfl
@[simp] theorem bumpI_pc (p : Params) (x : Nibble) : (bumpI p x s).pc = s.pc := by rw [bumpI_eq]; rfl
@[simp] theorem bumpI_stack (p : Params) (x : Nibble) : (bumpI p x s).stack = s.stack := by rw [bumpI_eq]; rfl
@[simp] theorem bumpI_DT (p : Params) (x : Nibble) : (bumpI p x s).DT = s.DT := by rw [bumpI_eq]; rfl
@[simp] theorem bumpI_ST (p : Params) (x : Nibble) : (bumpI p x s).ST = s.ST := by rw [bumpI_eq]; rfl
@[simp] theorem bumpI_mem (p : Params) (x : Nibble) : (bumpI p x s).mem = s.mem := by rw [bumpI_eq]; rfl
@[simp] theorem bumpI_fb (p : Params) (x : Nibble) : (bumpI p x s).fb = s.fb := by rw [bumpI_eq]; rfl
@[simp] theorem bumpI_status (p : Params) (x : Nibble) : (bumpI p x s).status = s.status := by rw [bumpI_eq]; rfl
@[simp] theorem bumpI_draws (p : Params) (x : Nibble) : (bumpI p x s).draws = s.draws := by rw [bumpI_eq]; rfl
@[simp] theorem bumpI_getV (p : Params) (x y : Nibble) : (bumpI p x s).getV y = s.getV y := by rw [bumpI_eq]; rfl

/-! ### `takeFault`: the record goes into `status`, nothing else changes (R243, R252) -/

theorem takeFault_status (e : Raise) (w : Option Word) :
    (takeFault s e w).status = .halted (faultRecord e (some s.pc) w) := rfl

@[simp] theorem takeFault_V (e : Raise) (w : Option Word) : (takeFault s e w).V = s.V := rfl
@[simp] theorem takeFault_pc (e : Raise) (w : Option Word) : (takeFault s e w).pc = s.pc := rfl
@[simp] theorem takeFault_I (e : Raise) (w : Option Word) : (takeFault s e w).I = s.I := rfl
@[simp] theorem takeFault_stack (e : Raise) (w : Option Word) : (takeFault s e w).stack = s.stack := rfl
@[simp] theorem takeFault_DT (e : Raise) (w : Option Word) : (takeFault s e w).DT = s.DT := rfl
@[simp] theorem takeFault_ST (e : Raise) (w : Option Word) : (takeFault s e w).ST = s.ST := rfl
@[simp] theorem takeFault_mem (e : Raise) (w : Option Word) : (takeFault s e w).mem = s.mem := rfl
@[simp] theorem takeFault_fb (e : Raise) (w : Option Word) : (takeFault s e w).fb = s.fb := rfl
@[simp] theorem takeFault_draws (e : Raise) (w : Option Word) : (takeFault s e w).draws = s.draws := rfl

end Sys2Proof.Machine
end

