-- ==== Sys2Proof/Laws/Memory.lean ====
section
/-! SUPPORT. The laws of memory: a read after a write, the canonical form and that every operation keeps it, and one
lemma per controller operation saying all it can do (20_memory.md R60 to R72). -/

namespace Sys2Proof.Machine

/-! ### `get` and `put` -/

theorem Memory.get_erase (m : Memory) (a c : Nat) :
    Memory.get (Memory.erase m a) c = if c = a then Memory.unlisted c else Memory.get m c := by
  induction m with
  | nil => simp [Memory.erase, Memory.get]
  | cons p m ih =>
    obtain ⟨b, u⟩ := p
    unfold Memory.erase at ih ⊢
    by_cases hb : b = a
    · subst hb; simp only [List.filter_cons, Memory.get, bne_self_eq_false, Bool.false_eq_true, ite_false, ih]
      split <;> simp_all [eq_comm]
    · simp only [List.filter_cons, Memory.get, bne_iff_ne, ne_eq, hb, not_false_eq_true, ite_true, ih]
      split <;> simp_all

theorem Memory.get_insert (m : Memory) (a c : Nat) (v : Byte) (h : ∀ e ∈ m, e.1 ≠ a) :
    Memory.get (Memory.insert m a v) c = if c = a then v else Memory.get m c := by
  induction m with
  | nil => simp [Memory.insert, Memory.get, eq_comm]
  | cons p m ih =>
    obtain ⟨b, u⟩ := p
    have hb : b ≠ a := h (b, u) (by simp)
    have ih := ih fun e he => h e (by simp [he])
    unfold Memory.insert
    split
    · simp only [Memory.get, eq_comm]
    · simp only [Memory.get, ih]; split <;> simp_all

theorem Memory.erase_ne (m : Memory) (a : Nat) : ∀ e ∈ Memory.erase m a, e.1 ≠ a := by
  simp [Memory.erase]

/-- Reading any address after a write: the written byte there, what was there elsewhere (R62, R63). -/
theorem Memory.get_put (m : Memory) (a c : Nat) (v : Byte) :
    Memory.get (Memory.put m a v) c = if c = a then v else Memory.get m c := by
  unfold Memory.put
  split
  · rename_i h; rw [Memory.get_erase]; split <;> simp_all
  · rw [Memory.get_insert _ _ _ _ (Memory.erase_ne m a), Memory.get_erase]; split <;> rfl

@[simp] theorem Memory.get_put_same (m : Memory) (a : Nat) (v : Byte) : Memory.get (Memory.put m a v) a = v := by
  simp [Memory.get_put]

theorem Memory.get_put_other (m : Memory) (a c : Nat) (v : Byte) (h : c ≠ a) :
    Memory.get (Memory.put m a v) c = Memory.get m c := by
  simp [Memory.get_put, h]

/-! ### The canonical form -/

theorem Memory.wf_nil : Memory.wf [] := by simp [Memory.wf]

theorem Memory.wf_erase (m : Memory) (a : Nat) (h : Memory.wf m) : Memory.wf (Memory.erase m a) :=
  ⟨h.1.filter _, fun c hc => h.2 c (List.mem_of_mem_filter hc)⟩

theorem Memory.mem_insert (m : Memory) (a : Nat) (v : Byte) (c : Host.Cell) :
    c ∈ Memory.insert m a v ↔ c = (a, v) ∨ c ∈ m := by
  induction m with
  | nil => simp [Memory.insert]
  | cons p m ih =>
    obtain ⟨b, u⟩ := p
    unfold Memory.insert
    split
    · simp
    · simp only [List.mem_cons, ih]; tauto

theorem Memory.pairwise_insert (m : Memory) (a : Nat) (v : Byte) (h : m.Pairwise (fun p q => p.1 < q.1))
    (hn : ∀ e ∈ m, e.1 ≠ a) : (Memory.insert m a v).Pairwise (fun p q => p.1 < q.1) := by
  induction m with
  | nil => simp [Memory.insert]
  | cons p m ih =>
    obtain ⟨b, u⟩ := p
    have hb : b ≠ a := hn (b, u) (by simp)
    rw [List.pairwise_cons] at h
    unfold Memory.insert
    split
    · rename_i hab
      refine List.pairwise_cons.2 ⟨fun e he => ?_, List.pairwise_cons.2 h⟩
      rcases List.mem_cons.1 he with rfl | he
      · exact hab
      · exact lt_trans hab (h.1 e he)
    · rename_i hab
      refine List.pairwise_cons.2 ⟨fun e he => ?_, ih h.2 fun e he => hn e (by simp [he])⟩
      rcases (Memory.mem_insert m a v e).1 he with rfl | he
      · show b < a; omega
      · exact h.1 e he

/-- A write at an address of the memory keeps the canonical form. -/
theorem Memory.wf_put (m : Memory) (a : Nat) (v : Byte) (h : Memory.wf m) (ha : a < 4096) :
    Memory.wf (Memory.put m a v) := by
  unfold Memory.put
  split
  · exact Memory.wf_erase m a h
  · rename_i hv
    have he := Memory.wf_erase m a h
    refine ⟨Memory.pairwise_insert _ _ _ he.1 (Memory.erase_ne m a), fun c hc => ?_⟩
    rcases (Memory.mem_insert _ _ _ _).1 hc with rfl | hc
    · exact ⟨ha, hv⟩
    · exact he.2 c hc

/-! ### The controller's operations -/

theorem inRange_iff (a : Int) : inRange a = true ↔ 0 ≤ a ∧ a ≤ 4095 := by simp [inRange]

theorem inRange_nat (a : Nat) : inRange (a : Int) = true ↔ a ≤ 4095 := by simp [inRange]

/-- `MemRead` in range (R61). -/
theorem memRead_ok (m : Memory) (a : Nat) (h : a ≤ 4095) : memRead m a = .ok (Memory.get m a) := by
  simp [memRead, (inRange_nat a).2 h]

/-- `MemRead` out of range (R61). -/
theorem memRead_error (m : Memory) (a : Nat) (h : 4095 < a) : memRead m a = .error (.outOfRangeAddress a) := by
  have : ¬ inRange (a : Int) = true := by rw [inRange_nat]; omega
  simp [memRead, this]

/-- `MemWrite` in range (R62). -/
theorem memWrite_ok (m : Memory) (a v : Nat) (h : a ≤ 4095) :
    memWrite m a v = .ok (Memory.put m a (BitVec.ofNat 8 v)) := by
  simp [memWrite, (inRange_nat a).2 h]

/-- `MemWrite` out of range (R62). -/
theorem memWrite_error (m : Memory) (a v : Nat) (h : 4095 < a) :
    memWrite m a v = .error (.outOfRangeAddress a) := by
  have : ¬ inRange (a : Int) = true := by rw [inRange_nat]; omega
  simp [memWrite, this]

/-- The `n` bytes of memory from `a` on. -/
def Memory.slice (m : Memory) (a : Nat) : Nat → List Byte
  | 0 => []
  | n + 1 => Memory.get m a :: Memory.slice m (a + 1) n

@[simp] theorem Memory.slice_length (m : Memory) (a n : Nat) : (Memory.slice m a n).length = n := by
  induction n generalizing a with
  | zero => rfl
  | succ n ih => simp [Memory.slice, ih]

/-- The `k`-th byte of a slice is the byte at `a + k`. -/
theorem Memory.slice_getElem (m : Memory) (a n k : Nat) (h : k < (Memory.slice m a n).length) :
    (Memory.slice m a n)[k] = Memory.get m (a + k) := by
  induction n generalizing a k with
  | zero => simp at h
  | succ n ih =>
    cases k with
    | zero => rfl
    | succ k =>
      simp only [Memory.slice, List.getElem_cons_succ]
      rw [ih (a + 1) k (by simpa using h)]
      congr 1; omega

/-- A block read: all of it, or the fault of its lowest out-of-range address (R71, R74, R250). -/
theorem loadBytes_eq (m : Memory) (a n : Nat) :
    loadBytes m a n =
      if n = 0 ∨ a + n ≤ 4096 then .ok (Memory.slice m a n) else .error (.outOfRangeAddress (max a 4096 : Nat)) := by
  induction n generalizing a with
  | zero => simp [loadBytes, Memory.slice]
  | succ n ih =>
    unfold loadBytes
    by_cases ha : a ≤ 4095
    · rw [memRead_ok m a ha, ih (a + 1)]
      by_cases hn : n = 0 ∨ a + 1 + n ≤ 4096
      · have : n + 1 = 0 ∨ a + (n + 1) ≤ 4096 := by omega
        simp only [hn, this, if_true, Memory.slice]
      · have h1 : ¬ (n + 1 = 0 ∨ a + (n + 1) ≤ 4096) := by omega
        have h2 : max (a + 1) 4096 = max a 4096 := by omega
        simp only [hn, h1, if_false, h2]
    · have h1 : ¬ (n + 1 = 0 ∨ a + (n + 1) ≤ 4096) := by omega
      have h2 : max a 4096 = a := by omega
      rw [memRead_error m a (by omega)]
      simp only [h1, if_false, h2]

/-- The bytes `bs` written from address `a` on, one after the other. -/
def Memory.putBytes (m : Memory) (a : Nat) : List Byte → Memory
  | [] => m
  | b :: bs => Memory.putBytes (Memory.put m a b) (a + 1) bs

/-- Reading after a block write: the byte written there, what was there elsewhere. -/
theorem Memory.get_putBytes (m : Memory) (a : Nat) (bs : List Byte) (c : Nat) :
    Memory.get (Memory.putBytes m a bs) c =
      if a ≤ c ∧ c < a + bs.length then bs.getD (c - a) 0 else Memory.get m c := by
  induction bs generalizing m a with
  | nil =>
    have : ¬ (a ≤ c ∧ c < a + ([] : List Byte).length) := by simp
    simp only [Memory.putBytes, this, if_false]
  | cons b bs ih =>
    simp only [Memory.putBytes, ih, Memory.get_put, List.length_cons]
    by_cases hc : c = a
    · subst hc
      have h1 : ¬ (c + 1 ≤ c ∧ c < c + 1 + bs.length) := by omega
      have h2 : c ≤ c ∧ c < c + (bs.length + 1) := by omega
      rw [if_neg h1, if_pos rfl, if_pos h2]; simp
    · by_cases hr : a + 1 ≤ c ∧ c < a + 1 + bs.length
      · have h2 : a ≤ c ∧ c < a + (bs.length + 1) := by omega
        obtain ⟨k, rfl⟩ : ∃ k, c = a + 1 + k := ⟨c - (a + 1), by omega⟩
        rw [if_pos hr, if_pos h2]
        have e1 : a + 1 + k - (a + 1) = k := by omega
        have e2 : a + 1 + k - a = k + 1 := by omega
        rw [e1, e2]; rfl
      · have h2 : ¬ (a ≤ c ∧ c < a + (bs.length + 1)) := by omega
        rw [if_neg hr, if_neg hc, if_neg h2]

/-- A block write within the memory keeps the canonical form. -/
theorem Memory.wf_putBytes (m : Memory) (a : Nat) (bs : List Byte) (h : Memory.wf m) (ha : bs = [] ∨ a + bs.length ≤ 4096) :
    Memory.wf (Memory.putBytes m a bs) := by
  induction bs generalizing m a with
  | nil => exact h
  | cons b bs ih =>
    simp only [List.length_cons, reduceCtorEq, false_or] at ha
    exact ih _ _ (Memory.wf_put m a b h (by omega)) (Or.inr (by omega))

/-- A block write: all of it, or the fault of its lowest out-of-range address (R71, R74, R250). -/
theorem storeBytes_eq (m : Memory) (a : Nat) (bs : List Byte) :
    storeBytes m a bs =
      if bs = [] ∨ a + bs.length ≤ 4096 then .ok (Memory.putBytes m a bs)
      else .error (.outOfRangeAddress (max a 4096 : Nat)) := by
  induction bs generalizing m a with
  | nil => simp [storeBytes, Memory.putBytes]
  | cons b bs ih =>
    unfold storeBytes
    simp only [reduceCtorEq, false_or, List.length_cons]
    by_cases ha : a ≤ 4095
    · rw [memWrite_ok m a _ ha]
      simp only [BitVec.ofNat_toNat, BitVec.setWidth_eq, ih]
      by_cases hn : bs = [] ∨ a + 1 + bs.length ≤ 4096
      · have : a + (bs.length + 1) ≤ 4096 := by rcases hn with rfl | hn <;> [(simp; omega); omega]
        simp only [hn, this, if_true, Memory.putBytes]
      · have h0 : bs.length ≠ 0 := by intro h; exact hn (Or.inl (List.length_eq_zero_iff.1 h))
        have h1 : ¬ (a + (bs.length + 1) ≤ 4096) := by omega
        have h2 : max (a + 1) 4096 = max a 4096 := by omega
        simp only [hn, h1, if_false, h2]
    · have h1 : ¬ (a + (bs.length + 1) ≤ 4096) := by omega
      have h2 : max a 4096 = a := by omega
      rw [memWrite_error m a _ (by omega)]
      simp only [h1, if_false, h2]

/-- `Fetch16` (R72, R241): the big-endian word, or the fault of the first byte out of range. -/
theorem fetch16_eq (m : Memory) (a : Nat) :
    fetch16 m a =
      if a + 1 ≤ 4095 then .ok (joinBytes (Memory.get m a) (Memory.get m (a + 1)))
      else .error (.outOfRangeAddress (max a 4096 : Nat)) := by
  unfold fetch16
  by_cases ha : a ≤ 4095
  · rw [memRead_ok m a ha]
    by_cases hb : a + 1 ≤ 4095
    · rw [memRead_ok m (a + 1) hb, if_pos hb]
    · have h2 : max a 4096 = a + 1 := by omega
      rw [memRead_error m (a + 1) (by omega), if_neg hb, h2]
  · have h1 : ¬ a + 1 ≤ 4095 := by omega
    have h2 : max a 4096 = a := by omega
    rw [memRead_error m a (by omega), if_neg h1, h2]

/-- `bulk_write` from an address of the memory (R64): every byte, masked, or nothing and the lowest out-of-range
address. -/
theorem firstOutOfRange_eq (a : Nat) (vs : List Nat) :
    firstOutOfRange a vs = if vs = [] ∨ a + vs.length ≤ 4096 then none else some ((max a 4096 : Nat) : Int) := by
  induction vs generalizing a with
  | nil => simp [firstOutOfRange]
  | cons v vs ih =>
    unfold firstOutOfRange
    simp only [reduceCtorEq, false_or, List.length_cons]
    have ih' := ih (a + 1)
    push_cast at ih'
    by_cases ha : a ≤ 4095
    · rw [if_pos ((inRange_nat a).2 ha), ih']
      by_cases hn : vs = [] ∨ a + 1 + vs.length ≤ 4096
      · have : a + (vs.length + 1) ≤ 4096 := by rcases hn with rfl | hn <;> [(simp; omega); omega]
        simp only [hn, this, if_true]
      · have h0 : vs.length ≠ 0 := by intro h; exact hn (Or.inl (List.length_eq_zero_iff.1 h))
        have h1 : ¬ (a + (vs.length + 1) ≤ 4096) := by omega
        have h2 : max ((a : Int) + 1) 4096 = max (a : Int) 4096 := by omega
        rw [if_neg hn, if_neg h1]; push_cast; rw [h2]
    · have h0 : ¬ inRange (a : Int) = true := by rw [inRange_nat]; omega
      have h1 : ¬ (a + (vs.length + 1) ≤ 4096) := by omega
      have h2 : max a 4096 = a := by omega
      rw [if_neg h0, if_neg h1, h2]

theorem putAll_eq (m : Memory) (a : Nat) (vs : List Nat) :
    putAll m a vs = Memory.putBytes m a (vs.map (BitVec.ofNat 8)) := by
  induction vs generalizing m a with
  | nil => rfl
  | cons v vs ih => simp [putAll, Memory.putBytes, ih]

end Sys2Proof.Machine
end

