-- ==== Sys2Proof/Laws/Driver.lean ====
section
/-! SUPPORT. The laws of the driver's operations: what a reset leaves in memory for any `FONT`, all that a load can
answer, and how infinite histories are made of finite ones (10_state.md R35, R47, 70_reset_and_hazards.md R270 to
R272). -/

namespace Sys2Proof.Machine

/-! ### Reset with any font -/

theorem map_ofNat_toNat (bs : List Byte) : (bs.map BitVec.toNat).map (BitVec.ofNat 8) = bs := by
  rw [List.map_map]; conv_rhs => rw [← List.map_id bs]
  exact List.map_congr_left fun b _ => by simp

theorem fontMemory_eq (font : Font) : fontMemory font = Memory.putBytes [] 0x050 font.toList := by
  unfold fontMemory; rw [putAll_eq, map_ofNat_toNat]; rfl

/-- The font's write of R271 is a `bulk_write` that succeeds. -/
theorem bulkWrite_font (font : Font) :
    bulkWrite [] (Config.fontBase : Nat) (font.toList.map BitVec.toNat) = .ok (fontMemory font) := by
  have h : firstOutOfRange (Config.fontBase : Nat) (font.toList.map BitVec.toNat) = none := by
    rw [firstOutOfRange_eq, if_pos (Or.inr (by simp [Config.fontBase]))]
  unfold bulkWrite; rw [h]; rfl

/-- Outside the font, an address reads 0x00 when it is not listed (R67). -/
theorem Memory.unlisted_zero (a : Nat) (h : ¬ (0x050 ≤ a ∧ a ≤ 0x09F)) : Memory.unlisted a = 0 := by
  unfold Memory.unlisted; rw [if_neg]; simp only [Config.fontBase, Config.fontSize]; omega

/-- Every byte after a reset with any font (R67). -/
theorem get_fontMemory (font : Font) (a : Nat) :
    Memory.get (fontMemory font) a = if 0x050 ≤ a ∧ a < 0x050 + 80 then font.toList.getD (a - 0x050) 0 else 0 := by
  rw [fontMemory_eq, Memory.get_putBytes, Vector.length_toList]
  split
  · rfl
  · exact Memory.unlisted_zero a (by omega)

theorem wf_fontMemory (font : Font) : Memory.wf (fontMemory font) := by
  rw [fontMemory_eq]
  exact Memory.wf_putBytes _ _ _ Memory.wf_nil (Or.inr (by simp))

/-- At the default `FONT` nothing is listed. -/
theorem fontMemory_params : fontMemory params.font = [] := by rfl

theorem resetWith_params : State.resetWith params.font = State.reset := by
  unfold State.resetWith; rw [fontMemory_params]; rfl

theorem newSessionWith_params (image : List Byte) : newSessionWith params.font image = newSession image := by
  unfold newSessionWith newSession; rw [resetWith_params]

/-! ### Load -/

/-- All that a load can answer: the image written and `Ok`, or nothing written, the fault taken and handed back. -/
theorem load_eq (image : List Byte) (s : State) :
    load image s =
      if image.length ≤ 3584 then (s.setMem (Memory.putBytes s.mem 0x200 image), .ok)
      else (s.setStatus (.halted ⟨.outOfRangeAddress, none, none, some 0x1000⟩),
        .fault ⟨.outOfRangeAddress, none, none, some 0x1000⟩) := by
  have hf := firstOutOfRange_eq 0x200 (image.map BitVec.toNat)
  have hc : (image.map BitVec.toNat = [] ∨ 0x200 + (image.map BitVec.toNat).length ≤ 4096) ↔ image.length ≤ 3584 := by
    simp only [List.map_eq_nil_iff, List.length_map]
    constructor
    · rintro (rfl | h)
      · exact Nat.zero_le _
      · omega
    · intro h; right; omega
  unfold load bulkWrite
  by_cases h : image.length ≤ 3584
  · rw [if_pos (hc.2 h)] at hf
    rw [show ((Config.programBase : Nat) : Int) = ((0x200 : Nat) : Int) from rfl, hf]
    simp only [putAll_eq, map_ofNat_toNat, if_pos h]; rfl
  · rw [if_neg (fun h' => h (hc.1 h'))] at hf
    rw [show ((Config.programBase : Nat) : Int) = ((0x200 : Nat) : Int) from rfl, hf]
    simp only [if_neg h]; rfl

/-! ### Histories -/

@[simp] theorem history_nil (s : State) : history s [] = s := rfl

@[simp] theorem history_cons (s : State) (a : Action) (as : List Action) :
    history s (a :: as) = history (perform s a) as := rfl

theorem history_append (s : State) (as bs : List Action) : history s (as ++ bs) = history (history s as) bs := by
  induction as generalizing s with
  | nil => rfl
  | cons a as ih => exact ih _

@[simp] theorem run_zero (s : State) (acts : Nat → Action) : run s acts 0 = s := rfl

@[simp] theorem run_succ (s : State) (acts : Nat → Action) (n : Nat) :
    run s acts (n + 1) = perform (run s acts n) (acts n) := rfl

/-- An infinite history passes through the states of its finite beginnings (R35). -/
theorem run_eq_history (s : State) (acts : Nat → Action) (n : Nat) :
    run s acts n = history s ((List.range n).map acts) := by
  induction n with
  | zero => rfl
  | succ n ih => rw [run_succ, ih, List.range_succ, List.map_append, history_append]; rfl

end Sys2Proof.Machine
end

