-- ==== Sys2Proof/Laws/Encoding.lean ====
section
/-! SUPPORT. The fields of a packed word are the fields it was packed from, and masking a packed word keeps the
fixed nibbles (30_encoding.md R91, R100). -/

namespace Sys2Proof

/-! ### Fields of packed words -/

theorem packNNN_getLsbD (c : Nibble) (nnn : Addr12) (k : Nat) :
    (packNNN c nnn).getLsbD k = if k < 12 then nnn.getLsbD k else c.getLsbD (k - 12) := by
  simp only [packNNN, BitVec.getLsbD_append]

@[simp] theorem fieldC_packNNN (c : Nibble) (nnn : Addr12) : fieldC (packNNN c nnn) = c := by
  apply BitVec.eq_of_getLsbD_eq
  intro k hk
  have h1 : ¬ 12 + k < 12 := by omega
  simp [fieldC, packNNN_getLsbD, hk, h1]

@[simp] theorem fieldNNN_packNNN (c : Nibble) (nnn : Addr12) : fieldNNN (packNNN c nnn) = nnn := by
  apply BitVec.eq_of_getLsbD_eq
  intro k hk
  simp [fieldNNN, packNNN_getLsbD, hk]

theorem packXNN_getLsbD (c x : Nibble) (nn : Byte) (k : Nat) :
    (packXNN c x nn).getLsbD k =
      if k < 8 then nn.getLsbD k else if k < 12 then x.getLsbD (k - 8) else c.getLsbD (k - 12) := by
  simp only [packXNN, BitVec.getLsbD_append]
  by_cases h : k < 8
  · simp [h]
  · have e : k - 8 - 4 = k - 12 := by omega
    by_cases h2 : k < 12
    · have : k - 8 < 4 := by omega
      simp [h, h2, this]
    · have : ¬ k - 8 < 4 := by omega
      simp [h, h2, this, e]

theorem packXYN_getLsbD (c x y n : Nibble) (k : Nat) :
    (packXYN c x y n).getLsbD k =
      if k < 4 then n.getLsbD k else if k < 8 then y.getLsbD (k - 4)
      else if k < 12 then x.getLsbD (k - 8) else c.getLsbD (k - 12) := by
  simp only [packXYN, BitVec.getLsbD_append]
  by_cases h : k < 4
  · have : k < 8 := by omega
    simp [h, this]
  · by_cases h1 : k < 8
    · simp [h, h1]
    · have e : k - 8 - 4 = k - 12 := by omega
      by_cases h2 : k < 12
      · have : k - 8 < 4 := by omega
        simp [h, h1, h2, this]
      · have : ¬ k - 8 < 4 := by omega
        simp [h, h1, h2, this, e]

@[simp] theorem fieldC_packXNN (c x : Nibble) (nn : Byte) : fieldC (packXNN c x nn) = c := by
  apply BitVec.eq_of_getLsbD_eq
  intro k hk
  have h1 : ¬ 12 + k < 8 := by omega
  have h2 : ¬ 12 + k < 12 := by omega
  simp [fieldC, packXNN_getLsbD, hk, h1]

@[simp] theorem fieldX_packXNN (c x : Nibble) (nn : Byte) : fieldX (packXNN c x nn) = x := by
  apply BitVec.eq_of_getLsbD_eq
  intro k hk
  have h2 : 8 + k < 12 := by omega
  simp [fieldX, packXNN_getLsbD, hk, h2]

@[simp] theorem fieldNN_packXNN (c x : Nibble) (nn : Byte) : fieldNN (packXNN c x nn) = nn := by
  apply BitVec.eq_of_getLsbD_eq
  intro k hk
  simp [fieldNN, packXNN_getLsbD, hk]

@[simp] theorem fieldC_packXYN (c x y n : Nibble) : fieldC (packXYN c x y n) = c := by
  apply BitVec.eq_of_getLsbD_eq
  intro k hk
  have h0 : ¬ 12 + k < 4 := by omega
  have h1 : ¬ 12 + k < 8 := by omega
  simp [fieldC, packXYN_getLsbD, hk, h0, h1]

@[simp] theorem fieldX_packXYN (c x y n : Nibble) : fieldX (packXYN c x y n) = x := by
  apply BitVec.eq_of_getLsbD_eq
  intro k hk
  have h0 : ¬ 8 + k < 4 := by omega
  have h2 : 8 + k < 12 := by omega
  simp [fieldX, packXYN_getLsbD, hk, h0, h2]

@[simp] theorem fieldY_packXYN (c x y n : Nibble) : fieldY (packXYN c x y n) = y := by
  apply BitVec.eq_of_getLsbD_eq
  intro k hk
  have h2 : 4 + k < 8 := by omega
  simp [fieldY, packXYN_getLsbD, hk, h2]

@[simp] theorem fieldN_packXYN (c x y n : Nibble) : fieldN (packXYN c x y n) = n := by
  apply BitVec.eq_of_getLsbD_eq
  intro k hk
  simp [fieldN, packXYN_getLsbD, hk]

/-! ### Words are packed from their fields -/

theorem packNNN_fields (w : Word) : packNNN (fieldC w) (fieldNNN w) = w := by
  apply BitVec.eq_of_getLsbD_eq
  intro k hk
  simp only [packNNN, fieldC, fieldNNN, BitVec.getLsbD_append, BitVec.getLsbD_extractLsb']
  by_cases h : k < 12
  · simp [h]
  · have h1 : k - 12 < 4 := by omega
    have h2 : 12 + (k - 12) = k := by omega
    simp [h, h1, h2]

theorem packXNN_fields (w : Word) : packXNN (fieldC w) (fieldX w) (fieldNN w) = w := by
  apply BitVec.eq_of_getLsbD_eq
  intro k hk
  simp only [packXNN_getLsbD, fieldC, fieldX, fieldNN, BitVec.getLsbD_extractLsb']
  by_cases h : k < 8
  · simp [h]
  · by_cases h1 : k < 12
    · have a : k - 8 < 4 := by omega
      have b : 8 + (k - 8) = k := by omega
      simp [h, h1, a, b]
    · have a : k - 12 < 4 := by omega
      have b : 12 + (k - 12) = k := by omega
      simp [h, h1, a, b]

theorem packXYN_fields (w : Word) : packXYN (fieldC w) (fieldX w) (fieldY w) (fieldN w) = w := by
  apply BitVec.eq_of_getLsbD_eq
  intro k hk
  simp only [packXYN_getLsbD, fieldC, fieldX, fieldY, fieldN, BitVec.getLsbD_extractLsb']
  by_cases h : k < 4
  · simp [h]
  · by_cases h0 : k < 8
    · have a : k - 4 < 4 := by omega
      have b : 4 + (k - 4) = k := by omega
      simp [h, h0, a, b]
    · by_cases h1 : k < 12
      · have a : k - 8 < 4 := by omega
        have b : 8 + (k - 8) = k := by omega
        simp [h, h0, h1, a, b]
      · have a : k - 12 < 4 := by omega
        have b : 12 + (k - 12) = k := by omega
        simp [h, h0, h1, a, b]

/-! ### Masks -/

/-- Bits 15 to 12 of a packed word, by the mask of the rows that fix the class only. -/
theorem packNNN_and_class (c : Nibble) (nnn : Addr12) : packNNN c nnn &&& 0xF000 = packNNN c 0 := by
  apply BitVec.eq_of_getLsbD_eq
  intro k hk
  simp only [packNNN, BitVec.getLsbD_and, BitVec.getLsbD_append]
  interval_cases k <;> simp

theorem packXNN_and_class (c x : Nibble) (nn : Byte) : packXNN c x nn &&& 0xF000 = packXNN c 0 0 := by
  apply BitVec.eq_of_getLsbD_eq
  intro k hk
  simp only [BitVec.getLsbD_and, packXNN_getLsbD]
  interval_cases k <;> simp

theorem packXNN_and_class_nn (c x : Nibble) (nn : Byte) : packXNN c x nn &&& 0xF0FF = packXNN c 0 nn := by
  apply BitVec.eq_of_getLsbD_eq
  intro k hk
  simp only [BitVec.getLsbD_and, packXNN_getLsbD]
  interval_cases k <;> simp

theorem packXYN_and_class (c x y n : Nibble) : packXYN c x y n &&& 0xF000 = packXYN c 0 0 0 := by
  apply BitVec.eq_of_getLsbD_eq
  intro k hk
  simp only [BitVec.getLsbD_and, packXYN_getLsbD]
  interval_cases k <;> simp

theorem packXYN_and_class_n (c x y n : Nibble) : packXYN c x y n &&& 0xF00F = packXYN c 0 0 n := by
  apply BitVec.eq_of_getLsbD_eq
  intro k hk
  simp only [BitVec.getLsbD_and, packXYN_getLsbD]
  interval_cases k <;> simp

/-! ### Bytes of a word -/

/-- The two bytes of a word, joined, are the word (R72). -/
@[simp] theorem joinBytes_bytes (w : Word) : joinBytes (highByte w) (lowByte w) = w := by
  apply BitVec.eq_of_getLsbD_eq
  intro k hk
  simp only [joinBytes, highByte, lowByte, BitVec.getLsbD_append, BitVec.getLsbD_extractLsb']
  by_cases h : k < 8
  · simp [h]
  · have a : k - 8 < 8 := by omega
    have b : 8 + (k - 8) = k := by omega
    simp [h, a, b]

end Sys2Proof
end

