-- ==== Sys2Proof/Laws/Ops.lean ====
section
/-! SUPPORT. One lemma per remaining shared operation: the register blocks of Fx55 and Fx65, the stack, the end of an
execution, the pc arithmetic, and placing a word at pc. -/

namespace Sys2Proof.Machine

/-- Two advances are four past the address (R25, R26). -/
theorem addr_add_two_two (a : Addr) : a + 2 + 2 = a + 4 := by rw [BitVec.add_assoc]; rfl

/-! ### Register blocks -/

@[simp] theorem regsUpTo_length (V : Regs) (x : Nibble) : (regsUpTo V x).length = x.toNat + 1 := by
  have := x.isLt
  simp [regsUpTo]; omega

theorem regsUpTo_ne_nil (V : Regs) (x : Nibble) : regsUpTo V x ≠ [] := by
  intro h
  have := regsUpTo_length V x
  rw [h] at this; simp at this

/-- Entry `k` of the block V0 to Vx is Vk (R204). -/
theorem regsUpTo_getD (s : State) (x k : Nibble) (h : k.toNat ≤ x.toNat) :
    (regsUpTo s.V x).getD k.toNat 0 = s.getV k := by
  have hk := k.isLt
  rw [List.getD_eq_getElem _ _ (by rw [regsUpTo_length]; omega)]
  simp [regsUpTo, State.getV]

/-- Register `j` after writing a block from `k` on (R205). -/
theorem putRegs_getElem (k : Nat) (bs : List Byte) (V : Regs) (j : Nat) (hj : j < 16) :
    (putRegs k bs V)[j] = if k ≤ j ∧ j < k + bs.length then bs.getD (j - k) 0 else V[j] := by
  induction bs generalizing k V with
  | nil =>
    have : ¬ (k ≤ j ∧ j < k + ([] : List Byte).length) := by simp
    rw [if_neg this]; rfl
  | cons b bs ih =>
    simp only [putRegs, ih, List.length_cons]
    by_cases hc : j = k
    · subst hc
      have h1 : ¬ (j + 1 ≤ j ∧ j < j + 1 + bs.length) := by omega
      have h2 : j ≤ j ∧ j < j + (bs.length + 1) := by omega
      rw [if_neg h1, if_pos h2]; simp
    · by_cases hr : k + 1 ≤ j ∧ j < k + 1 + bs.length
      · have h2 : k ≤ j ∧ j < k + (bs.length + 1) := by omega
        obtain ⟨m, rfl⟩ : ∃ m, j = k + 1 + m := ⟨j - (k + 1), by omega⟩
        have e1 : k + 1 + m - (k + 1) = m := by omega
        have e2 : k + 1 + m - k = m + 1 := by omega
        rw [if_pos hr, if_pos h2, e1, e2, List.getD_cons_succ]
      · have h2 : ¬ (k ≤ j ∧ j < k + (bs.length + 1)) := by omega
        rw [if_neg hr, if_neg h2, Vector.getElem_setIfInBounds_ne (by omega) (by omega)]

theorem slice_getD (m : Memory) (a n k : Nat) (h : k < n) : (Memory.slice m a n).getD k 0 = Memory.get m (a + k) := by
  rw [List.getD_eq_getElem _ _ (by rw [Memory.slice_length]; exact h), Memory.slice_getElem]

/-! ### Stack -/

theorem push_eq (depth : Nat) (st : List Addr) (v : Addr) :
    push depth st v = if st.length < depth then .ok (v :: st) else .error .stackOverflow := rfl

@[simp] theorem pop_nil : pop [] = .error .stackUnderflow := rfl

@[simp] theorem pop_cons (v : Addr) (st : List Addr) : pop (v :: st) = .ok (v, st) := rfl

/-! ### The end of an execution -/

@[simp] theorem commit_ok (i : Instr) (s t : State) : commit i s (.ok t) = .next t := rfl

@[simp] theorem commit_error (i : Instr) (s : State) (e : Raise) :
    commit i s (.error e) = .next (takeFault s e (some (encode i))) := rfl

/-! ### Fetch -/

/-- The fetch of a step (R241). -/
theorem fetch_eq (s : State) :
    fetch s =
      if s.pc.toNat + 1 ≤ 4095 then .ok (joinBytes (Memory.get s.mem s.pc.toNat) (Memory.get s.mem (s.pc.toNat + 1)))
      else .error (.outOfRangeAddress (max s.pc.toNat 4096 : Nat)) := fetch16_eq _ _

/-- A fetch above 0xFFE faults (R245). -/
theorem fetch_above (s : State) (h : 0xFFE < s.pc.toNat) : fetch s = .error (.outOfRangeAddress (max s.pc.toNat 4096 : Nat)) := by
  rw [fetch_eq, if_neg (by omega)]

/-- A word placed at pc is the word fetched there. -/
theorem fetch_placeWord (s : State) (w : Word) (h : s.pc.toNat ≤ 0xFFE) : fetch (placeWord s w) = .ok w := by
  have hp : placeWord s w =
      s.setMem (Memory.put (Memory.put s.mem s.pc.toNat (highByte w)) (s.pc.toNat + 1) (lowByte w)) := by
    unfold placeWord; rw [if_pos (by omega)]
  rw [hp, fetch_eq, if_pos (by simp only [State.setMem_pc]; omega)]
  simp only [State.setMem_pc, State.setMem_mem]
  rw [Memory.get_put_other _ _ _ _ (by omega)]
  simp

end Sys2Proof.Machine
end

