-- ==== Sys2Proof/Laws/PerInstr.lean ====
section
/-! SUPPORT. The per-instruction family `Encoding`: the row of 30_encoding.md R100 that an instruction belongs to is a
row of the opcode map, and it selects the instruction's word. One lemma per constructor. -/

namespace Sys2Proof.Laws.Encoding

/-- The instruction's row stands in the opcode map and selects the instruction's encoding. -/
def Statement (i : Instr) : Prop := i.row ∈ opcodeMap ∧ i.row.selects (encode i) = true

theorem cls : Statement .cls := ⟨by decide, by decide⟩

theorem ret : Statement .ret := ⟨by decide, by decide⟩

theorem jp (nnn : Addr12) : Statement (.jp nnn) := ⟨by simp [opcodeMap, Instr.row], by
    simp only [Row.selects, Instr.row, encode, packNNN_and_class]; decide⟩

theorem call (nnn : Addr12) : Statement (.call nnn) := ⟨by simp [opcodeMap, Instr.row], by
    simp only [Row.selects, Instr.row, encode, packNNN_and_class]; decide⟩

theorem seImm (x : Nibble) (nn : Byte) : Statement (.seImm x nn) := ⟨by simp [opcodeMap, Instr.row], by
    simp only [Row.selects, Instr.row, encode, packXNN_and_class]; decide⟩

theorem sneImm (x : Nibble) (nn : Byte) : Statement (.sneImm x nn) := ⟨by simp [opcodeMap, Instr.row], by
    simp only [Row.selects, Instr.row, encode, packXNN_and_class]; decide⟩

theorem seReg (x : Nibble) (y : Nibble) : Statement (.seReg x y) := ⟨by simp [opcodeMap, Instr.row], by
    simp only [Row.selects, Instr.row, encode, packXYN_and_class_n]; decide⟩

theorem ldImm (x : Nibble) (nn : Byte) : Statement (.ldImm x nn) := ⟨by simp [opcodeMap, Instr.row], by
    simp only [Row.selects, Instr.row, encode, packXNN_and_class]; decide⟩

theorem addImm (x : Nibble) (nn : Byte) : Statement (.addImm x nn) := ⟨by simp [opcodeMap, Instr.row], by
    simp only [Row.selects, Instr.row, encode, packXNN_and_class]; decide⟩

theorem ldReg (x : Nibble) (y : Nibble) : Statement (.ldReg x y) := ⟨by simp [opcodeMap, Instr.row], by
    simp only [Row.selects, Instr.row, encode, packXYN_and_class_n]; decide⟩

theorem orReg (x : Nibble) (y : Nibble) : Statement (.orReg x y) := ⟨by simp [opcodeMap, Instr.row], by
    simp only [Row.selects, Instr.row, encode, packXYN_and_class_n]; decide⟩

theorem andReg (x : Nibble) (y : Nibble) : Statement (.andReg x y) := ⟨by simp [opcodeMap, Instr.row], by
    simp only [Row.selects, Instr.row, encode, packXYN_and_class_n]; decide⟩

theorem xorReg (x : Nibble) (y : Nibble) : Statement (.xorReg x y) := ⟨by simp [opcodeMap, Instr.row], by
    simp only [Row.selects, Instr.row, encode, packXYN_and_class_n]; decide⟩

theorem addReg (x : Nibble) (y : Nibble) : Statement (.addReg x y) := ⟨by simp [opcodeMap, Instr.row], by
    simp only [Row.selects, Instr.row, encode, packXYN_and_class_n]; decide⟩

theorem sub (x : Nibble) (y : Nibble) : Statement (.sub x y) := ⟨by simp [opcodeMap, Instr.row], by
    simp only [Row.selects, Instr.row, encode, packXYN_and_class_n]; decide⟩

theorem shr (x : Nibble) (y : Nibble) : Statement (.shr x y) := ⟨by simp [opcodeMap, Instr.row], by
    simp only [Row.selects, Instr.row, encode, packXYN_and_class_n]; decide⟩

theorem subn (x : Nibble) (y : Nibble) : Statement (.subn x y) := ⟨by simp [opcodeMap, Instr.row], by
    simp only [Row.selects, Instr.row, encode, packXYN_and_class_n]; decide⟩

theorem shl (x : Nibble) (y : Nibble) : Statement (.shl x y) := ⟨by simp [opcodeMap, Instr.row], by
    simp only [Row.selects, Instr.row, encode, packXYN_and_class_n]; decide⟩

theorem sneReg (x : Nibble) (y : Nibble) : Statement (.sneReg x y) := ⟨by simp [opcodeMap, Instr.row], by
    simp only [Row.selects, Instr.row, encode, packXYN_and_class_n]; decide⟩

theorem ldI (nnn : Addr12) : Statement (.ldI nnn) := ⟨by simp [opcodeMap, Instr.row], by
    simp only [Row.selects, Instr.row, encode, packNNN_and_class]; decide⟩

theorem jpV0 (nnn : Addr12) : Statement (.jpV0 nnn) := ⟨by simp [opcodeMap, Instr.row], by
    simp only [Row.selects, Instr.row, encode, packNNN_and_class]; decide⟩

theorem rnd (x : Nibble) (nn : Byte) : Statement (.rnd x nn) := ⟨by simp [opcodeMap, Instr.row], by
    simp only [Row.selects, Instr.row, encode, packXNN_and_class]; decide⟩

theorem drw (x : Nibble) (y : Nibble) (n : Nibble) : Statement (.drw x y n) := ⟨by simp [opcodeMap, Instr.row], by
    simp only [Row.selects, Instr.row, encode, packXYN_and_class]; decide⟩

theorem skp (x : Nibble) : Statement (.skp x) := ⟨by simp [opcodeMap, Instr.row], by
    simp only [Row.selects, Instr.row, encode, packXNN_and_class_nn]; decide⟩

theorem sknp (x : Nibble) : Statement (.sknp x) := ⟨by simp [opcodeMap, Instr.row], by
    simp only [Row.selects, Instr.row, encode, packXNN_and_class_nn]; decide⟩

theorem ldVxDt (x : Nibble) : Statement (.ldVxDt x) := ⟨by simp [opcodeMap, Instr.row], by
    simp only [Row.selects, Instr.row, encode, packXNN_and_class_nn]; decide⟩

theorem ldVxK (x : Nibble) : Statement (.ldVxK x) := ⟨by simp [opcodeMap, Instr.row], by
    simp only [Row.selects, Instr.row, encode, packXNN_and_class_nn]; decide⟩

theorem ldDtVx (x : Nibble) : Statement (.ldDtVx x) := ⟨by simp [opcodeMap, Instr.row], by
    simp only [Row.selects, Instr.row, encode, packXNN_and_class_nn]; decide⟩

theorem ldStVx (x : Nibble) : Statement (.ldStVx x) := ⟨by simp [opcodeMap, Instr.row], by
    simp only [Row.selects, Instr.row, encode, packXNN_and_class_nn]; decide⟩

theorem addIVx (x : Nibble) : Statement (.addIVx x) := ⟨by simp [opcodeMap, Instr.row], by
    simp only [Row.selects, Instr.row, encode, packXNN_and_class_nn]; decide⟩

theorem ldFVx (x : Nibble) : Statement (.ldFVx x) := ⟨by simp [opcodeMap, Instr.row], by
    simp only [Row.selects, Instr.row, encode, packXNN_and_class_nn]; decide⟩

theorem ldBVx (x : Nibble) : Statement (.ldBVx x) := ⟨by simp [opcodeMap, Instr.row], by
    simp only [Row.selects, Instr.row, encode, packXNN_and_class_nn]; decide⟩

theorem ldMemVx (x : Nibble) : Statement (.ldMemVx x) := ⟨by simp [opcodeMap, Instr.row], by
    simp only [Row.selects, Instr.row, encode, packXNN_and_class_nn]; decide⟩

theorem ldVxMem (x : Nibble) : Statement (.ldVxMem x) := ⟨by simp [opcodeMap, Instr.row], by
    simp only [Row.selects, Instr.row, encode, packXNN_and_class_nn]; decide⟩

end Sys2Proof.Laws.Encoding

namespace Sys2Proof.Laws

/-- The family holds of every instruction. -/
theorem encoding_statement (i : Instr) : Encoding.Statement i :=
  match i with
  | .cls => Encoding.cls
  | .ret => Encoding.ret
  | .jp nnn => Encoding.jp nnn
  | .call nnn => Encoding.call nnn
  | .seImm x nn => Encoding.seImm x nn
  | .sneImm x nn => Encoding.sneImm x nn
  | .seReg x y => Encoding.seReg x y
  | .ldImm x nn => Encoding.ldImm x nn
  | .addImm x nn => Encoding.addImm x nn
  | .ldReg x y => Encoding.ldReg x y
  | .orReg x y => Encoding.orReg x y
  | .andReg x y => Encoding.andReg x y
  | .xorReg x y => Encoding.xorReg x y
  | .addReg x y => Encoding.addReg x y
  | .sub x y => Encoding.sub x y
  | .shr x y => Encoding.shr x y
  | .subn x y => Encoding.subn x y
  | .shl x y => Encoding.shl x y
  | .sneReg x y => Encoding.sneReg x y
  | .ldI nnn => Encoding.ldI nnn
  | .jpV0 nnn => Encoding.jpV0 nnn
  | .rnd x nn => Encoding.rnd x nn
  | .drw x y n => Encoding.drw x y n
  | .skp x => Encoding.skp x
  | .sknp x => Encoding.sknp x
  | .ldVxDt x => Encoding.ldVxDt x
  | .ldVxK x => Encoding.ldVxK x
  | .ldDtVx x => Encoding.ldDtVx x
  | .ldStVx x => Encoding.ldStVx x
  | .addIVx x => Encoding.addIVx x
  | .ldFVx x => Encoding.ldFVx x
  | .ldBVx x => Encoding.ldBVx x
  | .ldMemVx x => Encoding.ldMemVx x
  | .ldVxMem x => Encoding.ldVxMem x

end Sys2Proof.Laws
end

