-- ==== Sys2Proof/Machine/Assembly.lean ====
section
/-! DEFINITION. The assembler syntax of 30_encoding.md R103: every instruction in its conventional mnemonic and operand
syntax. No rule of the machine depends on it, and there are no pseudo-instructions (R104; D29). -/

namespace Sys2Proof

/-- One hex digit. -/
def hexDigit (d : Nibble) : String :=
  ["0", "1", "2", "3", "4", "5", "6", "7", "8", "9", "A", "B", "C", "D", "E", "F"].getD d.toNat ""

/-- "`Vx` is written V0 to VF" (R103). -/
def asmReg (x : Nibble) : String := "V" ++ hexDigit x

/-- `nn` as a hex number of two digits (R103). -/
def asmByte (nn : Byte) : String := "0x" ++ (hexDigit (nn.extractLsb' 4 4) ++ hexDigit (nn.extractLsb' 0 4))

/-- `nnn` as a hex number of three digits (R103). -/
def asmAddr (nnn : Addr12) : String :=
  "0x" ++ (hexDigit (nnn.extractLsb' 8 4) ++ (hexDigit (nnn.extractLsb' 4 4) ++ hexDigit (nnn.extractLsb' 0 4)))

/-- `n`, the row count 0 to 15, in decimal, as 95_test_vectors.md writes it. DEDUCED, safe: R103 does not say
(log 32). -/
def asmCount (n : Nibble) : String :=
  ["0", "1", "2", "3", "4", "5", "6", "7", "8", "9", "10", "11", "12", "13", "14", "15"].getD n.toNat ""

/-- A mnemonic with one operand. -/
def asm1 (m a : String) : String := m ++ (" " ++ a)

/-- A mnemonic with two operands. -/
def asm2 (m a b : String) : String := m ++ (" " ++ (a ++ (", " ++ b)))

/-- The assembler line of an instruction (R100's mnemonic column, R103). -/
def Instr.asm : Instr → String
  | .cls => "CLS"
  | .ret => "RET"
  | .jp nnn => asm1 "JP" (asmAddr nnn)
  | .call nnn => asm1 "CALL" (asmAddr nnn)
  | .seImm x nn => asm2 "SE" (asmReg x) (asmByte nn)
  | .sneImm x nn => asm2 "SNE" (asmReg x) (asmByte nn)
  | .seReg x y => asm2 "SE" (asmReg x) (asmReg y)
  | .ldImm x nn => asm2 "LD" (asmReg x) (asmByte nn)
  | .addImm x nn => asm2 "ADD" (asmReg x) (asmByte nn)
  | .ldReg x y => asm2 "LD" (asmReg x) (asmReg y)
  | .orReg x y => asm2 "OR" (asmReg x) (asmReg y)
  | .andReg x y => asm2 "AND" (asmReg x) (asmReg y)
  | .xorReg x y => asm2 "XOR" (asmReg x) (asmReg y)
  | .addReg x y => asm2 "ADD" (asmReg x) (asmReg y)
  | .sub x y => asm2 "SUB" (asmReg x) (asmReg y)
  | .shr x y => asm2 "SHR" (asmReg x) (asmReg y)
  | .subn x y => asm2 "SUBN" (asmReg x) (asmReg y)
  | .shl x y => asm2 "SHL" (asmReg x) (asmReg y)
  | .sneReg x y => asm2 "SNE" (asmReg x) (asmReg y)
  | .ldI nnn => asm2 "LD" "I" (asmAddr nnn)
  | .jpV0 nnn => asm2 "JP" "V0" (asmAddr nnn)
  | .rnd x nn => asm2 "RND" (asmReg x) (asmByte nn)
  | .drw x y n => asm2 "DRW" (asmReg x) (asmReg y ++ (", " ++ asmCount n))
  | .skp x => asm1 "SKP" (asmReg x)
  | .sknp x => asm1 "SKNP" (asmReg x)
  | .ldVxDt x => asm2 "LD" (asmReg x) "DT"
  | .ldVxK x => asm2 "LD" (asmReg x) "K"
  | .ldDtVx x => asm2 "LD" "DT" (asmReg x)
  | .ldStVx x => asm2 "LD" "ST" (asmReg x)
  | .addIVx x => asm2 "ADD" "I" (asmReg x)
  | .ldFVx x => asm2 "LD" "F" (asmReg x)
  | .ldBVx x => asm2 "LD" "B" (asmReg x)
  | .ldMemVx x => asm2 "LD" "[I]" (asmReg x)
  | .ldVxMem x => asm2 "LD" (asmReg x) "[I]"

end Sys2Proof
end

