-- ==== Sys2Proof/Tests/Slice0.lean ====
section
/-! SUPPORT. Tests: the checks of WellFormed refuse ill-formed words and images; every constructor decodes from a word
written out from 30_encoding.md R100; single steps with the results of spec/95_test_vectors.md (the vector's id in each
comment); and, for every statement with hypotheses, a state and operands that meet them. -/

namespace Sys2Proof.Tests
open Sys2Proof.Machine

/-! ### Helpers -/

/-- Some next state, and it satisfies `p`. -/
def nextSat (o : Result) (p : State → Bool) : Bool :=
  match o with
  | .next t => p t
  | .fault _ => false
  | .refused _ => false

/-- Reset with the word `w` at 0x200, where pc is. -/
def at200 (w : Nat) : State := State.reset.withFetchWord 16 w

/-- `s` with memory byte `a` set to `b`. -/
def poke (s : State) (a : Nat) (b : Byte) : State := s.setMem (Memory.put s.mem a b)

/-- The step answers a next state that is Running with pc `a` and satisfies `p`. -/
def okAt (s : State) (a : Addr) (p : State → Bool) : Bool :=
  nextSat (step s) fun t => t.status == .running && t.pc == a && p t

/-- `s` is Running with `i` at pc, and its step answers a Running state. -/
def runsOn (s : State) (i : Instr) : Bool :=
  s.status == .running && (match fetch s with | .ok w => decide (w = encode i) | .error _ => false) &&
    nextSat (step s) fun t => t.status == .running

/-- The step answers the state it began in, halted with the record `r`. -/
def faults (s : State) (r : FaultRecord) : Bool := nextSat (step s) fun t => t == s.setStatus (.halted r)

/-! ### WellFormed refuses -/

theorem test_illFormed_class0 : wordWellFormed 0x0123 = false ∧ wordWellFormed 0x00E1 = false := by decide
theorem test_illFormed_class5 : wordWellFormed 0x5121 = false := by decide
theorem test_illFormed_class8 : wordWellFormed 0x8128 = false := by decide
theorem test_illFormed_class9 : wordWellFormed 0x912F = false := by decide
theorem test_illFormed_classE : wordWellFormed 0xE19F = false := by decide
theorem test_illFormed_classF : wordWellFormed 0xF100 = false ∧ wordWellFormed 0xFFFF = false := by decide
theorem test_illFormed_image : imageWellFormed (List.replicate 3585 0) = false := by
  unfold imageWellFormed; rw [List.length_replicate]; decide
theorem test_wellFormed_image : imageWellFormed (List.replicate 3584 0) = true := by
  unfold imageWellFormed; rw [List.length_replicate]; decide
theorem test_wellFormed_word : wordWellFormed 0x6A3B = true := by decide

/-! ### Decoding: one word per constructor, bit fields written out from R100 -/

theorem test_decode_cls : decodeWord 0b0000000011100000 = .ok .cls := by rfl
theorem test_decode_ret : decodeWord 0b0000000011101110 = .ok .ret := by rfl
theorem test_decode_jp : decodeWord 0b0001_0010_0011_0100 = .ok (.jp 0x234) := by rfl
theorem test_decode_call : decodeWord 0b0010_1010_1011_1100 = .ok (.call 0xABC) := by rfl
theorem test_decode_seImm : decodeWord 0b0011_0001_1010_0101 = .ok (.seImm 0x1 0xA5) := by rfl
theorem test_decode_sneImm : decodeWord 0b0100_0010_0000_0101 = .ok (.sneImm 0x2 0x05) := by rfl
theorem test_decode_seReg : decodeWord 0b0101_0011_0100_0000 = .ok (.seReg 0x3 0x4) := by rfl
theorem test_decode_ldImm : decodeWord 0b0110_1010_0011_1011 = .ok (.ldImm 0xA 0x3B) := by rfl
theorem test_decode_addImm : decodeWord 0b0111_1010_0000_0101 = .ok (.addImm 0xA 0x05) := by rfl
theorem test_decode_ldReg : decodeWord 0b1000_0001_0010_0000 = .ok (.ldReg 0x1 0x2) := by rfl
theorem test_decode_orReg : decodeWord 0b1000_0001_0010_0001 = .ok (.orReg 0x1 0x2) := by rfl
theorem test_decode_andReg : decodeWord 0b1000_0001_0010_0010 = .ok (.andReg 0x1 0x2) := by rfl
theorem test_decode_xorReg : decodeWord 0b1000_0001_0010_0011 = .ok (.xorReg 0x1 0x2) := by rfl
theorem test_decode_addReg : decodeWord 0b1000_0001_0010_0100 = .ok (.addReg 0x1 0x2) := by rfl
theorem test_decode_sub : decodeWord 0b1000_0001_0010_0101 = .ok (.sub 0x1 0x2) := by rfl
theorem test_decode_shr : decodeWord 0b1000_0001_0010_0110 = .ok (.shr 0x1 0x2) := by rfl
theorem test_decode_subn : decodeWord 0b1000_0001_0010_0111 = .ok (.subn 0x1 0x2) := by rfl
theorem test_decode_shl : decodeWord 0b1000_0001_0010_1110 = .ok (.shl 0x1 0x2) := by rfl
theorem test_decode_sneReg : decodeWord 0b1001_0011_0100_0000 = .ok (.sneReg 0x3 0x4) := by rfl
theorem test_decode_ldI : decodeWord 0b1010_0011_0000_0001 = .ok (.ldI 0x301) := by rfl
theorem test_decode_jpV0 : decodeWord 0b1011_0011_0000_0010 = .ok (.jpV0 0x302) := by rfl
theorem test_decode_rnd : decodeWord 0b1100_0011_0000_1111 = .ok (.rnd 0x3 0x0F) := by rfl
theorem test_decode_drw : decodeWord 0b1101_0001_0010_0101 = .ok (.drw 0x1 0x2 0x5) := by rfl
theorem test_decode_skp : decodeWord 0b1110_0101_1001_1110 = .ok (.skp 0x5) := by rfl
theorem test_decode_sknp : decodeWord 0b1110_0101_1010_0001 = .ok (.sknp 0x5) := by rfl
theorem test_decode_ldVxDt : decodeWord 0b1111_0001_0000_0111 = .ok (.ldVxDt 0x1) := by rfl
theorem test_decode_ldVxK : decodeWord 0b1111_0001_0000_1010 = .ok (.ldVxK 0x1) := by rfl
theorem test_decode_ldDtVx : decodeWord 0b1111_0001_0001_0101 = .ok (.ldDtVx 0x1) := by rfl
theorem test_decode_ldStVx : decodeWord 0b1111_0011_0001_1000 = .ok (.ldStVx 0x3) := by rfl
theorem test_decode_addIVx : decodeWord 0b1111_0010_0001_1110 = .ok (.addIVx 0x2) := by rfl
theorem test_decode_ldFVx : decodeWord 0b1111_0001_0010_1001 = .ok (.ldFVx 0x1) := by rfl
theorem test_decode_ldBVx : decodeWord 0b1111_0001_0011_0011 = .ok (.ldBVx 0x1) := by rfl
theorem test_decode_ldMemVx : decodeWord 0b1111_0001_0101_0101 = .ok (.ldMemVx 0x1) := by rfl
theorem test_decode_ldVxMem : decodeWord 0b1111_0010_0110_0101 = .ok (.ldVxMem 0x2) := by rfl

/-- The bytes of W4, high byte first. -/
theorem test_decode_bytes : decode [0x61, 0xFF, 0x00] = .ok (.ldImm 0x1 0xFF, [0x00]) := by rfl
theorem test_decode_truncated : decode [0x61] = .error .truncated := by rfl
/-- T7 to T15, the first of each class. -/
theorem test_decode_invalid :
    decodeWord 0x0000 = .error .class0 ∧ decodeWord 0x5121 = .error .class5 ∧ decodeWord 0x8128 = .error .class8 ∧
    decodeWord 0x912F = .error .class9 ∧ decodeWord 0xE19F = .error .classE ∧ decodeWord 0xF100 = .error .classF := by
  refine ⟨?_, ?_, ?_, ?_, ?_, ?_⟩ <;> rfl
/-- The opcode table's numbering: bit 0 is the least significant bit of the word. -/
theorem test_decodeTableWord : decodeTableWord 16 0xD125 = some (.drw 0x1 0x2 0x5) ∧ decodeTableWord 16 0x8128 = none := by
  refine ⟨?_, ?_⟩ <;> rfl

/-- The lines that 95_test_vectors.md writes for 0xD125, 0xF155 and 0x2210. -/
theorem test_asm : (Instr.drw 0x1 0x2 0x5).asm = "DRW V1, V2, 5" ∧ (Instr.ldMemVx 0x1).asm = "LD [I], V1" ∧
    (Instr.call 0x210).asm = "CALL 0x210" := by decide

/-! ### Fetch and step -/

/-- T1. -/
theorem test_fetch_last_word :
    okAt ((State.reset.setPc 0xFFE).withFetchWord 16 0x1200) 0x200 (fun _ => true) = true := by decide
/-- T2. -/
theorem test_fetch_straddles_the_end :
    faults (State.reset.setPc 0xFFF) ⟨.outOfRangeAddress, some 0xFFF, none, some 0x1000⟩ = true := by decide
/-- T3. -/
theorem test_fetch_above_memory :
    faults (State.reset.setPc 0x1000) ⟨.outOfRangeAddress, some 0x1000, none, some 0x1000⟩ = true := by decide
/-- T4: an odd pc. -/
theorem test_fetch_odd_pc :
    okAt ((State.reset.setPc 0x201).withFetchWord 16 0x6133) 0x203 (fun t => t.getV 1 == 0x33) = true := by decide
/-- T7, T10. -/
theorem test_step_invalid_words :
    faults (at200 0x0000) ⟨.invalidOpcode, some 0x200, some 0x0000, none⟩ = true ∧
    faults (at200 0x5121) ⟨.invalidOpcode, some 0x200, some 0x5121, none⟩ = true := by decide
/-- T5. -/
theorem test_step_halted (r : FaultRecord) : step (State.reset.setStatus (.halted r)) = .fault (.halted r) := by rfl
/-- T6. -/
theorem test_tick_halted (r : FaultRecord) :
    (tickTimers ((State.reset.setDT 5).setStatus (.halted r))).DT = 4 := by
  show tickDown 5 = 4
  decide

/-! ### Control transfer and skips -/

/-- T17. -/
theorem test_ret : okAt ((at200 0x00EE).setStack [0x206]) 0x206 (fun t => t.stack == []) = true := by decide
/-- T16. -/
theorem test_ret_empty : faults (at200 0x00EE) ⟨.stackUnderflow, some 0x200, some 0x00EE, none⟩ = true := by decide
/-- T18: a jump to itself changes nothing. -/
theorem test_jp_self : nextSat (step (at200 0x1200)) (fun t => t == at200 0x1200) = true := by decide
/-- T19. -/
theorem test_call : okAt ((State.reset.setPc 0xFFE).withFetchWord 16 0x2300) 0x300 (fun t => t.stack == [0x1000]) = true := by
  decide
/-- T21. -/
theorem test_call_full :
    faults ((at200 0x2300).setStack (List.replicate 16 0x202)) ⟨.stackOverflow, some 0x200, some 0x2300, none⟩ = true := by
  decide
/-- R123's example, both ways. -/
theorem test_seImm : okAt (at200 0x3100) 0x204 (fun _ => true) = true ∧
    okAt ((at200 0x3100).setV 1 0x01) 0x202 (fun _ => true) = true := by decide
/-- R124's example, both ways (T27). -/
theorem test_sneImm : okAt ((at200 0x4205).setV 2 0x05) 0x202 (fun _ => true) = true ∧
    okAt ((at200 0x4205).setV 2 0x06) 0x204 (fun _ => true) = true := by decide
/-- T23 and R125's example. -/
theorem test_seReg : okAt ((at200 0x5110).setV 1 0x09) 0x204 (fun _ => true) = true ∧
    okAt ((at200 0x5340).setV 3 0x7F) 0x202 (fun _ => true) = true := by decide
/-- T24 and R126's example. -/
theorem test_sneReg : okAt ((at200 0x9110).setV 1 0x09) 0x202 (fun _ => true) = true ∧
    okAt (((at200 0x9340).setV 3 0x01).setV 4 0x02) 0x204 (fun _ => true) = true := by decide
/-- T25. -/
theorem test_jpV0 : okAt ((at200 0xBFFF).setV 0 0xFF) 0x10FE (fun _ => true) = true := by decide

/-! ### Loads and arithmetic -/

/-- W5. -/
theorem test_ldImm : okAt (at200 0x6A3B) 0x202 (fun t => t.getV 0xA == 0x3B) = true := by decide
/-- W6 and T28. -/
theorem test_addImm : okAt ((at200 0x7A05).setV 0xA 0xFE) 0x202 (fun t => t.getV 0xA == 0x03 && t.getV 0xF == 0) = true ∧
    okAt ((at200 0x7F01).setV 0xF 0xFF) 0x202 (fun t => t.getV 0xF == 0) = true := by decide
/-- T31. -/
theorem test_ldReg : okAt ((at200 0x81F0).setV 0xF 0x77) 0x202 (fun t => t.getV 1 == 0x77) = true := by decide
/-- R153's example. -/
theorem test_orReg : okAt (((at200 0x8121).setV 1 0xF0).setV 2 0x0F) 0x202 (fun t => t.getV 1 == 0xFF) = true := by decide
/-- T34. -/
theorem test_andReg : okAt (((at200 0x8122).setV 1 0xF0).setV 2 0x3C) 0x202 (fun t => t.getV 1 == 0x30) = true := by decide
/-- R155's example. -/
theorem test_xorReg : okAt (((at200 0x8123).setV 1 0xFF).setV 2 0x0F) 0x202 (fun t => t.getV 1 == 0xF0) = true := by decide
/-- T36 and T37 (x = F: the carry wins). -/
theorem test_addReg :
    okAt (((at200 0x8124).setV 1 0xFF).setV 2 0x01) 0x202 (fun t => t.getV 1 == 0 && t.getV 0xF == 1) = true ∧
    okAt (((at200 0x8F14).setV 0xF 0x80).setV 1 0x80) 0x202 (fun t => t.getV 0xF == 1) = true := by decide
/-- T39 and T40. -/
theorem test_sub :
    okAt (((at200 0x8125).setV 1 0x03).setV 2 0x05) 0x202 (fun t => t.getV 1 == 0xFE && t.getV 0xF == 0) = true ∧
    okAt (((at200 0x8F15).setV 0xF 0x01).setV 1 0x02) 0x202 (fun t => t.getV 0xF == 0) = true := by decide
/-- T43 (Vx is shifted) and T45. -/
theorem test_shr :
    okAt (((at200 0x8126).setV 1 0x05).setV 2 0x10) 0x202 (fun t => t.getV 1 == 0x02 && t.getV 0xF == 1) = true ∧
    okAt ((at200 0x8FF6).setV 0xF 0x03) 0x202 (fun t => t.getV 0xF == 1) = true := by decide
/-- T43 with the parameter true. -/
theorem test_shr_vy :
    nextSat (shrWith { params with shiftUsesVy := true } 1 2 ((State.reset.setV 1 0x05).setV 2 0x10))
      (fun t => t.getV 1 == 0x08 && t.getV 0xF == 0) = true := by decide
/-- T41 and T42. -/
theorem test_subn :
    okAt (((at200 0x8127).setV 1 0x05).setV 2 0x03) 0x202 (fun t => t.getV 1 == 0xFE && t.getV 0xF == 0) = true ∧
    okAt (((at200 0x8127).setV 1 0x03).setV 2 0x05) 0x202 (fun t => t.getV 1 == 0x02 && t.getV 0xF == 1) = true := by decide
/-- T47, with the parameter false. -/
theorem test_shl :
    okAt (((at200 0x812E).setV 1 0x81).setV 2 0x01) 0x202 (fun t => t.getV 1 == 0x02 && t.getV 0xF == 1) = true := by decide
/-- T47 with the parameter true. -/
theorem test_shl_vy :
    nextSat (shlWith { params with shiftUsesVy := true } 1 2 ((State.reset.setV 1 0x81).setV 2 0x01))
      (fun t => t.getV 1 == 0x02 && t.getV 0xF == 0) = true := by decide
/-- R161: whatever the draw, nn = 0 gives 0 (T48). -/
theorem test_rnd (s : State) : ∃ t, exec (.rnd 3 0) s = .next t ∧ t.getV 3 = 0 := by
  refine ⟨_, rfl, ?_⟩; simp

/-! ### Display -/

/-- T58. -/
theorem test_cls :
    okAt (((at200 0x00E0).setFb (fbSet fbClear 3 1 true)).setV 0xF 0x33) 0x202
      (fun t => !fbGet t.fb 3 1 && t.getV 0xF == 0x33) = true := by decide
/-- W10: columns past 63 are clipped, not wrapped. -/
theorem test_drw_clips :
    okAt ((poke (at200 0xD011) 0x300 0xFF |>.setI 0x300).setV 0 60) 0x202
      (fun t => fbGet t.fb 60 0 && fbGet t.fb 63 0 && !fbGet t.fb 0 0 && !fbGet t.fb 3 0 && t.getV 0xF == 0) = true := by decide
/-- T56: one colliding pixel is enough. -/
theorem test_drw_collides :
    okAt ((poke (at200 0xD011) 0x300 0xC0 |>.setI 0x300).setFb (fbSet fbClear 1 0 true)) 0x202
      (fun t => fbGet t.fb 0 0 && !fbGet t.fb 1 0 && t.getV 0xF == 1) = true := by decide
/-- T57: the origin is the old VF. -/
theorem test_drw_origin_vf :
    okAt ((poke (at200 0xDFF1) 0x300 0x80 |>.setI 0x300).setV 0xF 5) 0x202
      (fun t => fbGet t.fb 5 5 && t.getV 0xF == 0) = true := by decide
/-- T55: a row that would be clipped is still read. -/
theorem test_drw_fault :
    faults (((at200 0xD012).setI 0xFFF).setV 1 31) ⟨.outOfRangeAddress, some 0x200, some 0xD012, some 0x1000⟩ = true := by
  decide

/-! ### Index register and memory transfer -/

/-- T59. -/
theorem test_ldI : okAt (at200 0xA300) 0x202 (fun t => t.I == 0x300) = true := by decide
/-- T60 and T61. -/
theorem test_addIVx :
    okAt (((at200 0xF11E).setI 0xFFFF).setV 1 0x01) 0x202 (fun t => t.I == 0 && t.getV 0xF == 0) = true ∧
    okAt (((at200 0xF11E).setI 0x0FFF).setV 1 0x01) 0x202 (fun t => t.I == 0x1000) = true := by decide
/-- T62 and T63. -/
theorem test_ldFVx : okAt ((at200 0xF129).setV 1 0x1A) 0x202 (fun t => t.I == 0x82) = true ∧
    okAt ((at200 0xF129).setV 1 0x0F) 0x202 (fun t => t.I == 0x9B) = true := by decide
/-- R203's example. -/
theorem test_ldBVx :
    okAt (((at200 0xF033).setI 0x300).setV 0 0xFE) 0x202
      (fun t => Memory.get t.mem 0x300 == 2 && Memory.get t.mem 0x301 == 5 && Memory.get t.mem 0x302 == 4) = true := by decide
/-- T66. -/
theorem test_ldBVx_fault :
    faults ((poke (at200 0xF133) 0xFFE 0xAA |>.setI 0xFFE).setV 1 123)
      ⟨.outOfRangeAddress, some 0x200, some 0xF133, some 0x1000⟩ = true := by decide
/-- R204's example, with the parameter false. -/
theorem test_ldMemVx :
    okAt ((((at200 0xF155).setI 0x400).setV 0 0x11).setV 1 0x22) 0x202
      (fun t => Memory.get t.mem 0x400 == 0x11 && Memory.get t.mem 0x401 == 0x22 && Memory.get t.mem 0x402 == 0 &&
        t.I == 0x400) = true := by decide
/-- T69, with the parameter true. -/
theorem test_ldMemVx_increments :
    nextSat (ldMemVxWith { params with loadStoreIncrementsI := true } 1 (((State.reset.setI 0x400).setV 0 0x11).setV 1 0x22))
      (fun t => Memory.get t.mem 0x401 == 0x22 && t.I == 0x402) = true := by decide
/-- T71. -/
theorem test_ldVxMem :
    okAt (poke (at200 0xFF65) 0xFFF 0x7E |>.setI 0xFF0) 0x202 (fun t => t.getV 0xE == 0 && t.getV 0xF == 0x7E) = true := by
  decide
/-- T72. -/
theorem test_ldVxMem_fault :
    faults ((at200 0xFF65).setI 0xFF1) ⟨.outOfRangeAddress, some 0x200, some 0xFF65, some 0x1000⟩ = true := by decide

/-! ### Keyboard and timers: the oracle's answer is free, so each test says what either answer gives -/

/-- T73: the low nibble selects key A. -/
theorem test_skp :
    exec (.skp 1) (State.reset.setV 1 0x1A) =
      .next (((State.reset.setV 1 0x1A).countDraw).setPc (if Config.keyDown 0 0xA then 0x204 else 0x202)) := by rfl
/-- T74 and T75. -/
theorem test_sknp :
    exec (.sknp 5) (State.reset.setV 5 0x0A) =
      .next (((State.reset.setV 5 0x0A).countDraw).setPc (if !Config.keyDown 0 0xA then 0x204 else 0x202)) := by rfl
/-- T76. -/
theorem test_ldVxK_none (s : State) : (waitKey 1 none s.advance).pc = s.pc := by simp [waitKey]
/-- T77. -/
theorem test_ldVxK_some : (waitKey 0xF (some 0xC) State.reset.advance).getV 0xF = 0x0C ∧
    (waitKey 0xF (some 0xC) State.reset.advance).pc = 0x202 := by decide
/-- T78. -/
theorem test_ldVxDt : okAt ((at200 0xF107).setDT 0x3C) 0x202 (fun t => t.getV 1 == 0x3C && t.DT == 0x3C) = true := by decide
/-- T80. -/
theorem test_ldDtVx :
    okAt ((at200 0xF015).setV 0 0x07) 0x202 (fun t => t.DT == 7 && (tickTimers (tickTimers t)).DT == 5) = true := by decide
/-- T81. -/
theorem test_ldStVx :
    okAt ((at200 0xF318).setV 3 0x02) 0x202 (fun t => soundOn t && !soundOn (tickTimers (tickTimers t))) = true := by decide
/-- T79. -/
theorem test_tick_floor : (tickTimers State.reset).DT = 0 ∧ (tickTimers State.reset).ST = 0 := by decide

/-! ### Memory controller and loader -/

/-- W1, W2, T87. -/
theorem test_controller :
    (∃ m, memWrite [] 0x300 0x1A5 = .ok m ∧ memRead m 0x300 = .ok 0xA5) ∧
    memRead [] (-1) = .error (.outOfRangeAddress (-1)) ∧ memRead [] 0x1000 = .error (.outOfRangeAddress 0x1000) ∧
    memSize [] = 4096 := ⟨⟨_, rfl, rfl⟩, rfl, rfl, rfl⟩
/-- T82 and T83. -/
theorem test_bulkWrite : bulkWrite [] 0xFFE [1, 2, 3] = .error (.outOfRangeAddress 0x1000) ∧ bulkWrite [] 0x300 [] = .ok [] :=
  ⟨rfl, rfl⟩
/-- W3: first and last byte of the font. -/
theorem test_font : Memory.get State.reset.mem 0x050 = 0xF0 ∧ Memory.get State.reset.mem 0x09F = 0x80 ∧
    Memory.get State.reset.mem 0x0A0 = 0 ∧ Memory.get State.reset.mem 0x069 = 0xF0 := by decide
/-- P7's image lies at 0x200, high bytes first. -/
theorem test_load : Memory.get (newSession [0x60, 0x12]).mem 0x200 = 0x60 ∧ Memory.get (newSession [0x60, 0x12]).mem 0x201 = 0x12 := by
  decide
/-- R47's two answers: Ok, and the fault of an image one byte too long (U17). -/
theorem test_load_reports : (load [0x60, 0x12] State.reset).2 = .ok ∧
    (load (List.replicate 3585 0x12) State.reset).2 = .fault ⟨.outOfRangeAddress, none, none, some 0x1000⟩ := by
  constructor
  · decide
  · rw [load_eq, if_neg (by rw [List.length_replicate]; decide)]
/-- Another FONT lies at 0x050, and no program byte changes. -/
theorem test_resetWith : Memory.get (State.resetWith (Vector.replicate 80 0xAB)).mem 0x09F = 0xAB ∧
    Memory.get (State.resetWith (Vector.replicate 80 0xAB)).mem 0x0A0 = 0 := by
  constructor <;> rw [State.resetWith, State.setMem_mem, get_fontMemory] <;> decide
/-- The canonical form: writing what the address reads as anyway leaves no entry. -/
theorem test_put_canonical : Memory.put (Memory.put [] 0x300 5) 0x300 0 = [] ∧ Memory.put [] 0x050 0xF0 = [] := by decide

/-! ### Witnesses: for every statement with hypotheses, what meets them -/

/-- Reset, with the fault record of T2. -/
def halted : State := State.reset.setStatus (.halted ⟨.outOfRangeAddress, some 0x200, none, some 0x1000⟩)

theorem witness_EncodeOfDecodeGivesTheWord : decodeWord 0x6A3B = .ok (.ldImm 0xA 0x3B) := by rfl

theorem witness_DecodeAgreesWithTheOpcodeMap :
    decodeWord 0x6A3B = .ok (.ldImm 0xA 0x3B) ∧ (⟨0x6000, 0xF000⟩ : Row) ∈ opcodeMap ∧
    Row.selects ⟨0x6000, 0xF000⟩ 0x6A3B = true := ⟨rfl, by decide, by decide⟩

/-- One clause each: a halted engine, an instruction, an invalid word, a fetch fault, a next state. -/
theorem witness_StepFetchesDecodesAndExecutes :
    halted.status = .halted ⟨.outOfRangeAddress, some 0x200, none, some 0x1000⟩ ∧
    ((at200 0x1200).status = .running ∧ fetch (at200 0x1200) = .ok 0x1200 ∧ decodeWord 0x1200 = .ok (.jp 0x200)) ∧
    (State.reset.status = .running ∧ fetch State.reset = .ok 0x0000 ∧ decodeWord 0x0000 = .error .class0) ∧
    ((State.reset.setPc 0xFFF).status = .running ∧ fetch (State.reset.setPc 0xFFF) = .error (.outOfRangeAddress 0x1000)) ∧
    ∃ t, step (at200 0x1200) = .next t :=
  ⟨rfl, ⟨rfl, rfl, rfl⟩, ⟨rfl, rfl, rfl⟩, ⟨rfl, rfl⟩, ⟨_, rfl⟩⟩

/-- The three ranges at their boundaries. -/
theorem witness_FetchIsBigEndianAndChecked :
    (State.reset.setPc 0xFFE).pc.toNat ≤ 0xFFE ∧ (State.reset.setPc 0xFFF).pc = 0xFFF ∧
    0xFFF < (State.reset.setPc 0x1000).pc.toNat := by decide

theorem witness_RunningStepAlwaysAnswersANextState : State.reset.status = .running := by rfl

theorem witness_StepRunsThePlacedWord :
    (State.reset.setPc 0xFFE).status = .running ∧ (State.reset.setPc 0xFFE).pc.toNat ≤ 0xFFE ∧
    decodeWord 0x1200 = .ok (.jp 0x200) := ⟨rfl, by decide, rfl⟩

/-- A stack with one entry, an empty one, and a session after its first CALL. -/
theorem witness_RetPopsTheReturnAddress :
    (State.reset.setStack [0x206]).stack = 0x206 :: [] ∧ State.reset.stack = [] ∧
    ∃ s, Reachable s ∧ s.stack = 0x202 :: [] := by
  refine ⟨by decide, by decide, history (newSession [0x22, 0x00]) [.step], ⟨params.font, _, _, by rw [newSessionWith_params]⟩, by decide⟩

theorem witness_JpSetsPc : (0xFFF : Addr12) = 0xFFF := by rfl

theorem witness_CallPushesTheReturnAddress : (State.reset.setStack (List.replicate 15 0x202)).stack.length < 16 := by decide

theorem witness_StackFaultsRecordAndCommitNothing :
    State.reset.stack = [] ∧ 16 ≤ (State.reset.setStack (List.replicate 16 0x202)).stack.length := by decide

/-- A routine's state with the stack the CALL left. -/
theorem witness_RetAfterCallReturnsPastTheCall :
    State.reset.stack.length < 16 ∧
    ∃ t, exec (.call 0x300) State.reset = .next t ∧ (t.setV 3 7).stack = t.stack := ⟨by decide, _, rfl, rfl⟩

/-- A taken skip at 0xFFE goes above 0xFFE; a non-zero low nibble. -/
theorem witness_RegisterSkipsPassOneWord :
    (∃ t, exec (.seImm 1 0) (State.reset.setPc 0xFFE) = .next t ∧ 0xFFE < t.pc.toNat) ∧ (0x1 : Nibble) ≠ 0 :=
  ⟨⟨_, rfl, by decide⟩, by decide⟩

theorem witness_JpV0AddsV0 : ∃ t, exec (.jpV0 0xFFF) (State.reset.setV 0 0xFF) = .next t ∧ 0xFFE < t.pc.toNat :=
  ⟨_, rfl, by decide⟩

/-- Each clause: jumps, a return, skips taken and not, the key instructions, and an instruction that does not write
pc. -/
theorem witness_PcAfterAStep :
    runsOn (at200 0x1204) (.jp 0x204) = true ∧ runsOn (at200 0x2210) (.call 0x210) = true ∧
    runsOn ((at200 0xB300).setV 0 4) (.jpV0 0x300) = true ∧ runsOn ((at200 0x00EE).setStack [0x206]) .ret = true ∧
    runsOn (at200 0x3100) (.seImm 1 0) = true ∧ runsOn (at200 0x3101) (.seImm 1 1) = true ∧
    runsOn (at200 0x4100) (.sneImm 1 0) = true ∧ runsOn (at200 0x5120) (.seReg 1 2) = true ∧
    runsOn (at200 0x9120) (.sneReg 1 2) = true ∧ runsOn (at200 0xE59E) (.skp 5) = true ∧
    runsOn (at200 0xE5A1) (.sknp 5) = true ∧ runsOn (at200 0x6A3B) (.ldImm 0xA 0x3B) = true := by decide

/-- The wait of Fx0A, whose status no answer of the keyboard changes. -/
theorem witness_PcAfterAStep_ldVxK :
    (at200 0xF10A).status = .running ∧ fetch (at200 0xF10A) = .ok 0xF10A ∧ decodeWord 0xF10A = .ok (.ldVxK 1) ∧
    ∃ t, step (at200 0xF10A) = .next t ∧ t.status = .running := by
  refine ⟨rfl, rfl, rfl, _, rfl, ?_⟩
  unfold waitKey; split <;> rfl

/-- The last block that fits, and a stack below and at the depth. -/
theorem witness_ParametersSelectTheirVariants :
    (State.reset.setI 0xFF0).I.toNat + (0xF : Nibble).toNat ≤ 4095 ∧ State.reset.stack.length < params.stackDepth ∧
    params.stackDepth ≤ (State.reset.setStack (List.replicate 16 0x202)).stack.length := by decide

theorem witness_WrappingArithmeticNeverFaults :
    ((0xF : Nibble) = 0 ∨ (State.reset.setI 0xFF1).I.toNat + (0xF : Nibble).toNat ≤ 4096) ∧
    ((0x0 : Nibble) = 0 ∨ (State.reset.setI 0xFFFF).I.toNat + (0x0 : Nibble).toNat ≤ 4096) := by decide

/-- No rows at the highest I, the last sprite that fits; a collision and none. -/
theorem witness_DrawXorsTheSpriteAndReportsCollision :
    ((0 : Nibble) = 0 ∨ (State.reset.setI 0xFFFF).I.toNat + (0 : Nibble).toNat ≤ 4096) ∧
    ((0xF : Nibble) = 0 ∨ (State.reset.setI 0xFF1).I.toNat + (0xF : Nibble).toNat ≤ 4096) ∧
    (∃ px py, spriteBit [] 0x50 0 0 5 px py = true ∧ fbGet (fbSet fbClear 0 0 true) px py = true) ∧
    ¬ ∃ px py, spriteBit [] 0x50 0 0 5 px py = true ∧ fbGet fbClear px py = true := by
  refine ⟨by decide, by decide, ⟨0, 0, by decide, by decide⟩, ?_⟩
  rintro ⟨px, py, -, h⟩
  rw [fbGet_fbClear] at h; exact absurd h (by decide)

theorem witness_DrawingTwiceRestoresTheGrid :
    (0x0 : Nibble) ≠ 0xF ∧ (0x1 : Nibble) ≠ 0xF ∧
    ((0xF : Nibble) = 0 ∨ (State.reset.setI 0xFF1).I.toNat + (0xF : Nibble).toNat ≤ 4096) := by decide

/-- CLS turns a cell OFF; a draw that faults. -/
theorem witness_OnlyDrawAndClearWriteTheGrid :
    (∃ t, exec .cls (State.reset.setFb (fbSet fbClear 3 1 true)) = .next t ∧
      ∃ px py, fbGet t.fb px py ≠ fbGet (State.reset.setFb (fbSet fbClear 3 1 true)).fb px py) ∧
    ∃ t, (State.reset.setI 0xFFF).status = .running ∧ exec (.drw 0 1 2) (State.reset.setI 0xFFF) = .next t ∧
      t.status ≠ .running :=
  ⟨⟨_, rfl, 3, 1, by decide⟩, ⟨_, rfl, rfl, by decide⟩⟩

theorem witness_BcdStoresThreeDigits : (State.reset.setI 0xFFD).I.toNat + 2 ≤ 4095 := by decide

theorem witness_StoreRegistersWritesTheBlock :
    (State.reset.setI 0xFF0).I.toNat + (0xF : Nibble).toNat ≤ 4095 ∧ (0xF : Nibble).toNat ≤ (0xF : Nibble).toNat := by decide

theorem witness_LoadRegistersReadsTheBlock :
    (State.reset.setI 0xFF0).I.toNat + (0xF : Nibble).toNat ≤ 4095 ∧ (0xF : Nibble).toNat ≤ (0xF : Nibble).toNat := by decide

/-- Each of the four instructions at the lowest I from which it leaves the memory. -/
theorem witness_MemoryFaultsReportTheLowestAddress :
    (accessCount (.drw 0 1 1) ≠ 0 ∧ 4096 < (State.reset.setI 0x1000).I.toNat + accessCount (.drw 0 1 1)) ∧
    (accessCount (.ldBVx 0) ≠ 0 ∧ 4096 < (State.reset.setI 0xFFE).I.toNat + accessCount (.ldBVx 0)) ∧
    (accessCount (.ldMemVx 0xF) ≠ 0 ∧ 4096 < (State.reset.setI 0xFF1).I.toNat + accessCount (.ldMemVx 0xF)) ∧
    (accessCount (.ldVxMem 0) ≠ 0 ∧ 4096 < (State.reset.setI 0x1000).I.toNat + accessCount (.ldVxMem 0)) := by decide

theorem witness_StoredRegistersAreFetchedAsCode :
    (State.reset.setI 0xFFE).I.toNat + (0x1 : Nibble).toNat ≤ 4095 ∧ (0x0 : Nibble).toNat < (0x1 : Nibble).toNat := by decide

/-- Both ends of the range and the addresses next to them. -/
theorem witness_ControllerReadsAndWritesInRange :
    ((0 : Int) ≤ 0 ∧ (0 : Int) ≤ 4095) ∧ ((0 : Int) ≤ 4095 ∧ (4095 : Int) ≤ 4095) ∧
    ¬ ((0 : Int) ≤ -1 ∧ (-1 : Int) ≤ 4095) ∧ ¬ ((0 : Int) ≤ 4096 ∧ (4096 : Int) ≤ 4095) := by decide

/-- Two bytes at 0xFFE fit; of three, the third is out of range. -/
theorem witness_BulkWriteIsAllOrNothing :
    (∀ k : Nat, k < [1, 2].length → (0 : Int) ≤ 0xFFE + (k : Int) ∧ (0xFFE : Int) + (k : Int) ≤ 4095) ∧
    (2 < [1, 2, 3].length ∧ ¬ ((0 : Int) ≤ 0xFFE + ((2 : Nat) : Int) ∧ (0xFFE : Int) + ((2 : Nat) : Int) ≤ 4095) ∧
      ∀ j : Nat, j < 2 → (0 : Int) ≤ 0xFFE + (j : Int) ∧ (0xFFE : Int) + (j : Int) ≤ 4095) := by
  refine ⟨fun k h => ?_, by decide, by decide, fun j h => by omega⟩
  simp at h; omega

theorem witness_CanonicalMemoryIsDeterminedByItsReads :
    Memory.wf [(0x300, 5)] ∧ Memory.wf (Memory.put [] 0x300 5) ∧
    ∀ a, Memory.get [(0x300, 5)] a = Memory.get (Memory.put [] 0x300 5) a :=
  ⟨by decide, by decide, fun _ => rfl⟩

theorem witness_KeyWaitRunsTheSameWordAgain :
    (at200 0xF00A).status = .running ∧ fetch (at200 0xF00A) = .ok (packXNN 0xF 0x0 0x0A) := ⟨rfl, rfl⟩

/-- An infinite history of ticks alone, in which no step changes a timer. -/
def ticks : Nat → Action := fun _ => .tick

theorem ticks_keep_occurring : TicksKeepOccurring ticks := fun n => ⟨n, le_refl n, rfl⟩

theorem witness_TicksCountBothTimersDown :
    TicksKeepOccurring ticks ∧
    (∀ n, ticks n = .step → (run State.reset ticks (n + 1)).DT = (run State.reset ticks n).DT) ∧
    ∀ n, ticks n = .step → (run State.reset ticks (n + 1)).ST = (run State.reset ticks n).ST :=
  ⟨ticks_keep_occurring, fun _ h => absurd (show Action.tick = .step from h) (by decide), fun _ h => absurd (show Action.tick = .step from h) (by decide)⟩

theorem witness_FaultingStepCommitsOnlyTheRecord :
    State.reset.status = .running ∧ ∃ t r, step State.reset = .next t ∧ t.status = .halted r := ⟨rfl, _, _, rfl, rfl⟩

/-- Each of the three kinds, and two instructions that cannot fault. -/
theorem witness_OnlyTheListedInstructionsFault :
    (Instr.cls ≠ .ret ∧ (∀ nnn, Instr.cls ≠ .call nnn) ∧ accessCount .cls = 0) ∧
    (Instr.drw 0 1 0 ≠ .ret ∧ (∀ nnn, Instr.drw 0 1 0 ≠ .call nnn) ∧ accessCount (.drw 0 1 0) = 0) ∧
    State.reset.status = .running ∧ (∃ t r, exec .ret State.reset = .next t ∧ t.status = .halted r) ∧
    (∃ t r, exec (.call 0x300) (State.reset.setStack (List.replicate 16 0x202)) = .next t ∧ t.status = .halted r) ∧
    ∃ t r, exec (.ldBVx 0) (State.reset.setI 0xFFE) = .next t ∧ t.status = .halted r :=
  ⟨⟨nofun, nofun, rfl⟩, ⟨nofun, nofun, rfl⟩, rfl, ⟨_, _, rfl, rfl⟩, ⟨_, _, rfl, rfl⟩, ⟨_, _, rfl, rfl⟩⟩

theorem witness_HaltedIsSticky : halted.status = .halted ⟨.outOfRangeAddress, some 0x200, none, some 0x1000⟩ := by rfl

/-- An address in no listed part, an image of the largest size, one byte more. -/
theorem witness_SessionStartsWithTheImageLoaded :
    (List.replicate 3584 (0x12 : Byte)).length ≤ 3584 ∧ 3584 < (List.replicate 3585 (0x12 : Byte)).length ∧
    0 < [(0x12 : Byte)].length ∧
    (¬ (0x050 ≤ 0x0A0 ∧ 0x0A0 ≤ 0x09F) ∧ ¬ (0x200 ≤ 0x0A0 ∧ 0x0A0 < 0x200 + [(0x12 : Byte)].length)) :=
  ⟨by rw [List.length_replicate], by rw [List.length_replicate]; decide, by decide, by decide⟩

/-- P7's first word, in the smallest image that holds it. -/
theorem witness_FirstStepRunsTheImagesFirstWord :
    [(0x60 : Byte), 0x12].length ≤ 3584 ∧
    decodeWord ([(0x60 : Byte), 0x12].getD 0 0 ++ [(0x60 : Byte), 0x12].getD 1 0) = .ok (.ldImm 0x0 0x12) := by
  refine ⟨by decide, ?_⟩; rfl

theorem witness_ResetLeavesTheStatedValues : ¬ (0x050 ≤ 0x0A0 ∧ 0x0A0 ≤ 0x09F) ∧ 79 < 80 := by decide

theorem witness_FinalStateIsAFixedPoint : isFinal (at200 0x1200) = true ∧ TicksKeepOccurring ticks :=
  ⟨by decide, ticks_keep_occurring⟩

theorem witness_StepKeepsTheInvariant : MachineInv (State.reset.setPc 0x208) ∧ ∃ t, step (State.reset.setPc 0x208) = .next t := by
  refine ⟨⟨Memory.wf_nil, by show (0x208 : Addr).toNat ≤ 0x10FE; decide, ⟨Nat.zero_le _, fun a h => by cases h⟩, ?_⟩, _, rfl⟩
  intro r h; cases h

theorem witness_ReachableStatesSatisfyTheInvariant : Reachable (newSession [0x12, 0x00]) := ⟨params.font, [0x12, 0x00], [], newSessionWith_params _⟩

/-- Each clause: a write of its part. -/
theorem witness_OnlyTheListedWritersWrite :
    (∃ t, exec (.call 0x300) State.reset = .next t ∧ t.stack ≠ State.reset.stack) ∧
    (∃ t, exec (.ldI 0x300) State.reset = .next t ∧ t.I ≠ State.reset.I) ∧
    (∃ t, exec (.ldDtVx 1) (State.reset.setV 1 7) = .next t ∧ t.DT ≠ (State.reset.setV 1 7).DT) ∧
    (∃ t, exec (.ldStVx 1) (State.reset.setV 1 7) = .next t ∧ t.ST ≠ (State.reset.setV 1 7).ST) ∧
    (∃ t, exec (.ldBVx 1) ((State.reset.setI 0x300).setV 1 7) = .next t ∧ t.mem ≠ ((State.reset.setI 0x300).setV 1 7).mem) ∧
    (∃ t, exec (.rnd 1 7) State.reset = .next t ∧ t.draws ≠ State.reset.draws) :=
  ⟨⟨_, rfl, by decide⟩, ⟨_, rfl, by decide⟩, ⟨_, rfl, by decide⟩, ⟨_, rfl, by decide⟩, ⟨_, rfl, by decide⟩,
    ⟨_, rfl, by decide⟩⟩

theorem witness_OnlyFlagWritersTouchVF :
    ∃ t, exec (.addReg 1 1) (State.reset.setV 1 0xFF) = .next t ∧ t.getV 0xF ≠ (State.reset.setV 1 0xFF).getV 0xF :=
  ⟨_, rfl, by decide⟩

theorem witness_NoInstructionReadsTheSoundTimer : ∃ t, exec .cls State.reset = .next t := ⟨_, rfl⟩

theorem witness_NoInstructionReadsTheStatus : ∃ t, exec .cls halted = .next t := ⟨_, rfl⟩

end Sys2Proof.Tests
end

section
/-! PROOFS. The register file (10_state.md section 1): a register write reads back and leaves the other registers
alone, and reset clears all sixteen. -/

namespace Sys2Proof.Machine

/-- Every general register is 0 after reset (10_state.md R20, 70_reset_and_hazards.md R270). -/
@[simp] theorem State.getV_reset (x : Nibble) : State.reset.getV x = 0 :=
  Vector.getElem_replicate x.isLt

/-- Settles O18: the read-after-write law of the register file, and its value at reset. -/
theorem registersAreSixteenIndependentBytes : Obligations.RegistersAreSixteenIndependentBytes :=
  ⟨State.getV_setV, State.getV_reset⟩

end Sys2Proof.Machine
end

section
/-! PROOFS. The memory controller (20_memory.md section 1): read and write at any integer address, negative ones
included, where the laws of the model's own accesses speak of natural addresses. -/

namespace Sys2Proof.Machine

/-- A read in range answers the byte (20_memory.md R61). -/
theorem memRead_of_inRange (m : Memory) {a : Int} (h : inRange a = true) : memRead m a = .ok (Memory.get m a.toNat) :=
  if_pos h

/-- A read out of range raises with the address asked for (20_memory.md R61). -/
theorem memRead_of_not_inRange (m : Memory) {a : Int} (h : ¬ inRange a = true) :
    memRead m a = .error (.outOfRangeAddress a) :=
  if_neg h

/-- A write in range puts the value's low eight bits (20_memory.md R62). -/
theorem memWrite_of_inRange (m : Memory) {a : Int} (v : Nat) (h : inRange a = true) :
    memWrite m a v = .ok (Memory.put m a.toNat (BitVec.ofNat 8 v)) :=
  if_pos h

/-- A write out of range raises and gives no memory back (20_memory.md R62). -/
theorem memWrite_of_not_inRange (m : Memory) {a : Int} (v : Nat) (h : ¬ inRange a = true) :
    memWrite m a v = .error (.outOfRangeAddress a) :=
  if_neg h

/-- The byte of a number is the number masked with 0xFF. -/
theorem byte_ofNat_mod (v : Nat) : BitVec.ofNat 8 (v % 256) = BitVec.ofNat 8 v :=
  BitVec.eq_of_toNat_eq (Nat.mod_mod v 256)

/-- Settles O38: the range check decides, and a write in range is one `Memory.put`. -/
theorem controllerReadsAndWritesInRange : Obligations.ControllerReadsAndWritesInRange := by
  unfold Obligations.ControllerReadsAndWritesInRange
  simp only [← inRange_iff]
  refine ⟨fun m a => memRead_of_inRange m, fun m a => memRead_of_not_inRange m, fun m a v h => ?_,
    fun m a v => memWrite_of_not_inRange m v⟩
  refine ⟨_, memWrite_of_inRange m v h, ?_, fun c hc => Memory.get_put_other m a.toNat c _ hc⟩
  rw [Memory.get_put_same, byte_ofNat_mod]

end Sys2Proof.Machine
end

section
/-! PROOFS. Control transfer that writes pc alone (40_control_flow.md R121, R123 to R126): JP and the four register
skips are one `setPc` of the state the step began in, so their frame and their next fetch are proved once, about
`setPc`. -/

namespace Sys2Proof.Machine

/-! ### Writing pc -/

/-- The frame of a pc write: every other part of the state reads the same. -/
theorem unchanged_setPc (s : State) (a : Addr) (p : Part) (h : p ≠ .pc) : Unchanged p s (s.setPc a) := by
  cases p with
  | pc => exact absurd rfl h
  | _ => rfl

/-- The advance and a skip make one pc write, four or two past the instruction's own address (10_state.md R24, R25). -/
theorem State.skipIf_advance (s : State) (c : Bool) :
    s.advance.skipIf c = s.setPc (if c then s.pc + 4 else s.pc + 2) := by
  rw [← addr_add_two_two]
  rfl

/-- At the last byte of memory the fetch faults on the byte after it (60_exceptions.md R241). -/
theorem fetch_last_byte (s : State) (h : s.pc = 0xFFF) : fetch s = .error (.outOfRangeAddress 0x1000) := by
  rw [fetch_above s (by rw [h]; decide), h]
  rfl

/-! ### The words of JP and of the register skips -/

@[simp] theorem decodeWord_jp (nnn : Addr12) : decodeWord (packNNN 0x1 nnn) = .ok (.jp nnn) := by
  simp [decodeWord]

@[simp] theorem decodeWord_seImm (x : Nibble) (nn : Byte) : decodeWord (packXNN 0x3 x nn) = .ok (.seImm x nn) := by
  simp [decodeWord]

@[simp] theorem decodeWord_sneImm (x : Nibble) (nn : Byte) : decodeWord (packXNN 0x4 x nn) = .ok (.sneImm x nn) := by
  simp [decodeWord]

/-- Class 5 has an instruction only at the low nibble 0 (30_encoding.md R101). -/
theorem decodeWord_class5 (x y n : Nibble) :
    decodeWord (packXYN 0x5 x y n) = if n = 0 then .ok (.seReg x y) else .error .class5 := by
  simp [decodeWord]

/-- Class 9 has an instruction only at the low nibble 0 (30_encoding.md R101). -/
theorem decodeWord_class9 (x y n : Nibble) :
    decodeWord (packXYN 0x9 x y n) = if n = 0 then .ok (.sneReg x y) else .error .class9 := by
  simp [decodeWord]

/-! ### JP -/

/-- JP is one pc write: the advance before it is written over. -/
theorem exec_jp (nnn : Addr12) (s : State) : exec (.jp nnn) s = .next (s.setPc (zext16 nnn)) := rfl

/-- Settles O11: JP is a pc write, and 0xFFF is the last byte of memory. -/
theorem jpSetsPc : Obligations.JpSetsPc := by
  refine fun nnn s => ⟨decodeWord_jp nnn, s.setPc (zext16 nnn), exec_jp nnn s, rfl, unchanged_setPc s _, ?_⟩
  rintro rfl
  exact fetch_last_byte _ rfl

/-! ### The register skips -/

/-- An instruction that advances and then skips on a test skips on the condition that the test decides. -/
theorem skipsIf_of_exec {i : Instr} {cond : State → Prop} (test : State → Bool)
    (hexec : ∀ s, exec i s = .next (s.advance.skipIf (test s))) (htest : ∀ s, test s = true ↔ cond s) :
    SkipsIf i cond := by
  intro s
  have hpc : exec i s = .next (s.setPc (if test s then s.pc + 4 else s.pc + 2)) := by
    rw [hexec, State.skipIf_advance]
  refine ⟨_, hpc, fun h => ?_, fun h => ?_, unchanged_setPc s _, fun h => ⟨_, fetch_above _ h⟩⟩
  · exact if_pos ((htest s).2 h)
  · exact if_neg (mt (htest s).1 h)

theorem seImm_skipsIf (x : Nibble) (nn : Byte) : SkipsIf (.seImm x nn) fun s => s.getV x = nn :=
  skipsIf_of_exec (fun s => s.getV x == nn) (fun _ => rfl) fun _ => beq_iff_eq

theorem sneImm_skipsIf (x : Nibble) (nn : Byte) : SkipsIf (.sneImm x nn) fun s => s.getV x ≠ nn :=
  skipsIf_of_exec (fun s => s.getV x != nn) (fun _ => rfl) fun _ => bne_iff_ne

theorem seReg_skipsIf (x y : Nibble) : SkipsIf (.seReg x y) fun s => s.getV x = s.getV y :=
  skipsIf_of_exec (fun s => s.getV x == s.getV y) (fun _ => rfl) fun _ => beq_iff_eq

theorem sneReg_skipsIf (x y : Nibble) : SkipsIf (.sneReg x y) fun s => s.getV x ≠ s.getV y :=
  skipsIf_of_exec (fun s => s.getV x != s.getV y) (fun _ => rfl) fun _ => bne_iff_ne

/-- Settles O15: each skip decodes from its word and passes exactly one word; classes 5 and 9 have no other word. -/
theorem registerSkipsPassOneWord : Obligations.RegisterSkipsPassOneWord :=
  ⟨fun x nn => ⟨decodeWord_seImm x nn, seImm_skipsIf x nn⟩,
   fun x nn => ⟨decodeWord_sneImm x nn, sneImm_skipsIf x nn⟩,
   fun x y => ⟨(decodeWord_class5 x y 0).trans (if_pos rfl), seReg_skipsIf x y⟩,
   fun x y => ⟨(decodeWord_class9 x y 0).trans (if_pos rfl), sneReg_skipsIf x y⟩,
   fun x y n hn => ⟨(decodeWord_class5 x y n).trans (if_neg hn), (decodeWord_class9 x y n).trans (if_neg hn)⟩⟩

end Sys2Proof.Machine
end

section
/-! PROOFS. Immediate loads and adds (41_load_alu.md R150, R151): an instruction that advances and writes one register
has the frame of a pc write followed by a register write, so `LoadsRegister` is proved once for that shape. -/

namespace Sys2Proof.Machine

/-! ### Writing one register -/

/-- A part that two writes in a row each keep is kept by both together. -/
theorem Unchanged.trans {p : Part} {s t u : State} (hst : Unchanged p s t) (htu : Unchanged p t u) :
    Unchanged p s u := by
  cases p <;> exact Eq.trans htu hst

/-- The frame of a register write: every other part of the state, the other registers included, reads the same. -/
theorem unchanged_setV (s : State) (x : Nibble) (b : Byte) (p : Part) (h : p ≠ .reg x) :
    Unchanged p s (s.setV x b) := by
  cases p with
  | reg y => exact State.getV_setV_other s x y b fun hyx => h (congrArg Part.reg hyx)
  | _ => rfl

/-- An instruction that advances and then writes `val` of the state it began in to Vx loads Vx with it. -/
theorem loadsRegister_of_exec {i : Instr} {x : Nibble} {val : State → Byte}
    (hexec : ∀ s, exec i s = .next (s.advance.setV x (val s))) : LoadsRegister i x val := by
  refine fun s => ⟨_, hexec s, State.getV_setV_same s.advance x _, rfl, fun p hpc hreg => ?_⟩
  have hadvance : Unchanged p s s.advance := unchanged_setPc s _ p hpc
  exact hadvance.trans (unchanged_setV s.advance x _ p hreg)

/-! ### LD Vx, nn and ADD Vx, nn -/

@[simp] theorem decodeWord_ldImm (x : Nibble) (nn : Byte) : decodeWord (packXNN 0x6 x nn) = .ok (.ldImm x nn) := by
  simp [decodeWord]

@[simp] theorem decodeWord_addImm (x : Nibble) (nn : Byte) : decodeWord (packXNN 0x7 x nn) = .ok (.addImm x nn) := by
  simp [decodeWord]

theorem ldImm_loadsRegister (x : Nibble) (nn : Byte) : LoadsRegister (.ldImm x nn) x fun _ => nn :=
  loadsRegister_of_exec fun _ => rfl

/-- The sum of two bytes wraps at 8 bits: it is the byte of the unbounded sum (41_load_alu.md R151). -/
theorem addImm_loadsRegister (x : Nibble) (nn : Byte) :
    LoadsRegister (.addImm x nn) x fun s => BitVec.ofNat 8 ((s.getV x).toNat + nn.toNat) := by
  refine loadsRegister_of_exec fun s => ?_
  rw [← BitVec.add_def]
  rfl

/-- Settles O19: both words decode to their instructions, and each instruction is one register write after the
advance. -/
theorem loadAndAddImmediate : Obligations.LoadAndAddImmediate :=
  ⟨fun x nn => ⟨decodeWord_ldImm x nn, ldImm_loadsRegister x nn⟩,
   fun x nn => ⟨decodeWord_addImm x nn, addImm_loadsRegister x nn⟩⟩

end Sys2Proof.Machine
end

section
/-! PROOFS. Clearing the display (42_display.md R180): CLS is a pc write and a write of the whole grid, so its frame is
the two frames one after the other. -/

namespace Sys2Proof.Machine

/-- The frame of a write of the whole grid: every part that is no cell reads the same. -/
theorem unchanged_setFb (s : State) (g : Grid) (p : Part) (h : ∀ px py, p ≠ .cell px py) :
    Unchanged p s (s.setFb g) := by
  cases p with
  | cell px py => exact absurd rfl (h px py)
  | _ => rfl

/-- CLS writes the grid with every cell OFF after the advance. -/
theorem exec_cls (s : State) : exec .cls s = .next (s.advance.setFb fbClear) := rfl

/-- Settles O27: every cell of the grid that CLS writes is OFF, and what else it writes is the advance of pc. -/
theorem clsClearsEveryCell : Obligations.ClsClearsEveryCell := by
  refine ⟨rfl, fun s => ⟨_, exec_cls s, fbGet_fbClear, rfl, fun p hpc hcell => ?_⟩⟩
  have hadvance : Unchanged p s s.advance := unchanged_setPc s _ p hpc
  exact hadvance.trans (unchanged_setFb s.advance fbClear p hcell)

end Sys2Proof.Machine
end

section
/-! PROOFS. Loading the index register (43_index_memory.md R200): an instruction that advances and writes I has the
frame of a pc write followed by an I write, so `LoadsIndex` is proved once for that shape. -/

namespace Sys2Proof.Machine

/-- The frame of an I write: every other part of the state, all of memory included, reads the same. -/
theorem unchanged_setI (s : State) (a : Addr) (p : Part) (h : p ≠ .idx) : Unchanged p s (s.setI a) := by
  cases p with
  | idx => exact absurd rfl h
  | _ => rfl

/-- An instruction that advances and then writes `val` of the state it began in to I loads I with it. -/
theorem loadsIndex_of_exec {i : Instr} {val : State → Addr}
    (hexec : ∀ s, exec i s = .next (s.advance.setI (val s))) : LoadsIndex i val := by
  refine fun s => ⟨_, hexec s, State.setI_I s.advance _, rfl, fun p hpc hidx => ?_⟩
  have hadvance : Unchanged p s s.advance := unchanged_setPc s _ p hpc
  exact hadvance.trans (unchanged_setI s.advance _ p hidx)

@[simp] theorem decodeWord_ldI (nnn : Addr12) : decodeWord (packNNN 0xA nnn) = .ok (.ldI nnn) := by
  simp [decodeWord]

theorem ldI_loadsIndex (nnn : Addr12) : LoadsIndex (.ldI nnn) fun _ => zext16 nnn :=
  loadsIndex_of_exec fun _ => rfl

/-- Settles O31: the word decodes to LD I, nnn, which is one I write after the advance. -/
theorem ldILoadsTheIndex : Obligations.LdILoadsTheIndex :=
  fun nnn => ⟨decodeWord_ldI nnn, ldI_loadsIndex nnn⟩

end Sys2Proof.Machine
end

section
/-! PROOFS. Wrapping arithmetic is defined, not an error (60_exceptions.md R249). The five register and index sums answer
register or I writes, which leave the status alone; DRW could fault only in its row reads, so where those can be made
it answers its writes too, whatever the origin that Vx and Vy wrap to. -/

namespace Sys2Proof.Machine

/-- What DRW draws from the row bytes `rows` on a cleared flag: the grid, and whether a pixel met an ON cell
(42_display.md R181). -/
def drawn (x y : Nibble) (rows : List Byte) (s : State) : Grid × Bool :=
  drawRows (originX (s.getV x)) (originY (s.getV y)) rows (s.fb, false)

/-- DRW where its rows can be read: the drawn grid and flag are written, and no fault is taken (42_display.md R181). -/
theorem exec_drw_of_readable (x y n : Nibble) (s : State) (h : n = 0 ∨ s.I.toNat + n.toNat ≤ 4096) :
    exec (.drw x y n) s = .next ((s.advance.setFb (drawn x y (Memory.slice s.mem s.I.toNat n.toNat) s).1).setFlag
      (drawn x y (Memory.slice s.mem s.I.toNat n.toNat) s).2) := by
  have hrows : n.toNat = 0 ∨ s.I.toNat + n.toNat ≤ 4096 := h.imp_left (congrArg BitVec.toNat)
  have hload : loadBytes s.mem (baseAddr s) n.toNat = .ok (Memory.slice s.mem s.I.toNat n.toNat) :=
    (loadBytes_eq s.mem s.I.toNat n.toNat).trans (if_pos hrows)
  change execDrw x y n s = _
  rw [execDrw, hload]
  rfl

/-- Settles O26: each listed instruction answers the advance of pc followed by writes that keep the status, DRW's being
the grid and the flag. -/
theorem wrappingArithmeticNeverFaults : Obligations.WrappingArithmeticNeverFaults := by
  intro x y n nn s
  constructor
  · simp only [List.forall_mem_cons]
    refine ⟨⟨_, rfl, ?addImm⟩, ⟨_, rfl, ?addReg⟩, ⟨_, rfl, ?sub⟩, ⟨_, rfl, ?subn⟩, ⟨_, rfl, ?addIVx⟩,
      List.forall_mem_nil _⟩
    case addImm => rw [State.setV_status, State.advance_status]
    case addReg | sub | subn => rw [State.setVFlag_status, State.advance_status]
    case addIVx => rw [State.setI_status, State.advance_status]
  · intro hreadable
    refine ⟨_, exec_drw_of_readable x y n s hreadable, ?_⟩
    rw [State.setFlag_status, State.setFb_status, State.advance_status]

end Sys2Proof.Machine
end

section
/-! PROOFS. Encoding (30_encoding.md sections 1 to 4): the decoder inverts the encoder on every instruction; a word
that decodes is packed from its own fields, so the encoder inverts the decoder too; a row of the opcode map fixes the
class and the sub-field by which the decoder dispatches; and what is left over is refused by class. -/

namespace Sys2Proof

/-! ### Decode after encode -/

/-- The dispatch of R94 on a packed word reads back the fields it was packed from. -/
theorem decodeWord_encode (i : Instr) : decodeWord (encode i) = .ok i := by
  cases i with
  | cls | ret => rfl
  | jp | call | ldI | jpV0 | seImm | sneImm | ldImm | addImm | rnd | seReg | sneReg | drw => simp [encode, decodeWord]
  | ldReg | orReg | andReg | xorReg | addReg | sub | shr | subn | shl => simp [encode, decodeWord, decodeClass8]
  | skp | sknp => simp [encode, decodeWord, decodeClassE]
  | ldVxDt | ldVxK | ldDtVx | ldStVx | addIVx | ldFVx | ldBVx | ldMemVx | ldVxMem =>
    simp [encode, decodeWord, decodeClassF]

/-- A decoder consumes the two bytes of an instruction and gives back what follows (30_encoding.md R90). -/
theorem decode_encodeBytes_append (i : Instr) (rest : List Byte) : decode (encodeBytes i ++ rest) = .ok (i, rest) := by
  simp [encodeBytes, decode, decodeWord_encode]

/-- Settles O1: the dispatch reads back the fields that `encode` packed, and the two bytes join to the word. -/
theorem decodeOfEncodeGivesTheInstruction : Obligations.DecodeOfEncodeGivesTheInstruction :=
  fun i rest => ⟨decodeWord_encode i, decode_encodeBytes_append i rest⟩

/-- Settles O5: each word is a closed term that the decoder evaluates. -/
theorem sampleWordsDecode : Obligations.SampleWordsDecode :=
  ⟨rfl, rfl, rfl, rfl, rfl, rfl, rfl, rfl, rfl, rfl, rfl⟩

/-! ### A word packed from its fields, some of them known -/

section
variable {w : Word} {c : Nibble} (hc : (fieldC w).toNat = c.toNat)
include hc

theorem packNNN_of_class : packNNN c (fieldNNN w) = w := by
  rw [← BitVec.eq_of_toNat_eq hc, packNNN_fields]

theorem packXNN_of_class : packXNN c (fieldX w) (fieldNN w) = w := by
  rw [← BitVec.eq_of_toNat_eq hc, packXNN_fields]

theorem packXYN_of_class : packXYN c (fieldX w) (fieldY w) (fieldN w) = w := by
  rw [← BitVec.eq_of_toNat_eq hc, packXYN_fields]

theorem packXNN_of_class_nn {nn : Byte} (hnn : (fieldNN w).toNat = nn.toNat) : packXNN c (fieldX w) nn = w := by
  rw [← BitVec.eq_of_toNat_eq hnn, packXNN_of_class hc]

theorem packXYN_of_class_n {n : Nibble} (hn : (fieldN w).toNat = n.toNat) :
    packXYN c (fieldX w) (fieldY w) n = w := by
  rw [← BitVec.eq_of_toNat_eq hn, packXYN_of_class hc]

end

/-! ### Encode after decode -/

theorem encode_of_decodeClass0 {w : Word} {i : Instr} (h : decodeClass0 w = .ok i) : encode i = w := by
  unfold decodeClass0 at h
  split at h
  · cases h; exact Eq.symm ‹_›
  · split at h
    · cases h; exact Eq.symm ‹_›
    · cases h

theorem encode_of_decodeClass8 {w : Word} {i : Instr} (hc : (fieldC w).toNat = 8) (h : decodeClass8 w = .ok i) :
    encode i = w := by
  unfold decodeClass8 at h
  split at h <;> cases h <;> exact packXYN_of_class_n hc ‹_›

theorem encode_of_decodeClassE {w : Word} {i : Instr} (hc : (fieldC w).toNat = 14) (h : decodeClassE w = .ok i) :
    encode i = w := by
  unfold decodeClassE at h
  split at h <;> cases h <;> exact packXNN_of_class_nn hc ‹_›

theorem encode_of_decodeClassF {w : Word} {i : Instr} (hc : (fieldC w).toNat = 15) (h : decodeClassF w = .ok i) :
    encode i = w := by
  unfold decodeClassF at h
  split at h <;> cases h <;> exact packXNN_of_class_nn hc ‹_›

/-- Every arm of the dispatch packs back the fields it took from the word. -/
theorem encode_of_decodeWord {w : Word} {i : Instr} (h : decodeWord w = .ok i) : encode i = w := by
  unfold decodeWord at h
  split at h
  case h_1 => exact encode_of_decodeClass0 h
  case h_2 | h_3 | h_11 | h_12 => cases h; exact packNNN_of_class ‹_›
  case h_4 | h_5 | h_7 | h_8 | h_13 => cases h; exact packXNN_of_class ‹_›
  case h_6 hc | h_10 hc =>
    split at h
    · rename_i hn
      cases h
      exact packXYN_of_class_n hc (congrArg BitVec.toNat hn)
    · cases h
  case h_9 hc => exact encode_of_decodeClass8 hc h
  case h_14 => cases h; exact packXYN_of_class ‹_›
  case h_15 hc => exact encode_of_decodeClassE hc h
  case h_16 =>
    refine encode_of_decodeClassF ?_ h
    have hlt := (fieldC w).isLt
    simp only [imp_false] at *
    omega

/-- Settles O2: the arm that decoded the word says which of its fields are fixed, and the rest are the operands. -/
theorem encodeOfDecodeGivesTheWord : Obligations.EncodeOfDecodeGivesTheWord :=
  fun _ _ h => encode_of_decodeWord h

/-! ### Decode and the opcode map -/

/-- A row of the class alone selects the words of that class. -/
theorem class_of_selects {w : Word} (c : Nibble) (h : Row.selects ⟨packXYN c 0 0 0, 0xF000⟩ w = true) :
    (fieldC w).toNat = c.toNat := by
  have hmask := beq_iff_eq.1 h
  rw [← packXYN_fields w, packXYN_and_class] at hmask
  simpa using congrArg (fun v => (fieldC v).toNat) hmask

/-- A row with the low nibble fixed selects words of its class and low nibble. -/
theorem class_n_of_selects {w : Word} (c n : Nibble) (h : Row.selects ⟨packXYN c 0 0 n, 0xF00F⟩ w = true) :
    (fieldC w).toNat = c.toNat ∧ (fieldN w).toNat = n.toNat := by
  have hmask := beq_iff_eq.1 h
  rw [← packXYN_fields w, packXYN_and_class_n] at hmask
  constructor
  · simpa using congrArg (fun v => (fieldC v).toNat) hmask
  · simpa using congrArg (fun v => (fieldN v).toNat) hmask

/-- A row with the low byte fixed selects words of its class and low byte. -/
theorem class_nn_of_selects {w : Word} (c : Nibble) (nn : Byte) (h : Row.selects ⟨packXNN c 0 nn, 0xF0FF⟩ w = true) :
    (fieldC w).toNat = c.toNat ∧ (fieldNN w).toNat = nn.toNat := by
  have hmask := beq_iff_eq.1 h
  rw [← packXNN_fields w, packXNN_and_class_nn] at hmask
  constructor
  · simpa using congrArg (fun v => (fieldC v).toNat) hmask
  · simpa using congrArg (fun v => (fieldNN v).toNat) hmask

/-- A row with the whole word fixed selects that word. -/
theorem eq_of_selects {w v : Word} (h : Row.selects ⟨v, 0xFFFF⟩ w = true) : v = w := by
  have hmask : w &&& 0xFFFF = v := beq_iff_eq.1 h
  rw [← hmask]
  exact BitVec.and_allOnes

/-- Every word a row selects is the encoding of an instruction of that row, its operands being the word's fields. -/
def Row.EncodesSelected (r : Row) : Prop := ∀ w, r.selects w = true → ∃ i, encode i = w ∧ i.row = r

/-! Each of the next lemmas takes the fixed nibbles of a row and the constructor that belongs to it; that they fit
the encoder and `Instr.row` is by evaluation. -/

theorem Row.encodesSelected_word (i : Instr) (hr : i.row = ⟨encode i, 0xFFFF⟩ := by rfl) :
    Row.EncodesSelected ⟨encode i, 0xFFFF⟩ :=
  fun _ h => ⟨i, eq_of_selects h, hr⟩

theorem Row.encodesSelected_nnn (c : Nibble) (i : Addr12 → Instr)
    (hi : ∀ nnn, encode (i nnn) = packNNN c nnn := by intros; rfl)
    (hr : ∀ nnn, (i nnn).row = ⟨packXYN c 0 0 0, 0xF000⟩ := by intros; rfl) :
    Row.EncodesSelected ⟨packXYN c 0 0 0, 0xF000⟩ :=
  fun w h => ⟨i (fieldNNN w), (hi _).trans (packNNN_of_class (class_of_selects c h)), hr _⟩

theorem Row.encodesSelected_xnn (c : Nibble) (i : Nibble → Byte → Instr)
    (hi : ∀ x nn, encode (i x nn) = packXNN c x nn := by intros; rfl)
    (hr : ∀ x nn, (i x nn).row = ⟨packXYN c 0 0 0, 0xF000⟩ := by intros; rfl) :
    Row.EncodesSelected ⟨packXYN c 0 0 0, 0xF000⟩ :=
  fun w h => ⟨i (fieldX w) (fieldNN w), (hi _ _).trans (packXNN_of_class (class_of_selects c h)), hr _ _⟩

theorem Row.encodesSelected_xyn (c : Nibble) (i : Nibble → Nibble → Nibble → Instr)
    (hi : ∀ x y n, encode (i x y n) = packXYN c x y n := by intros; rfl)
    (hr : ∀ x y n, (i x y n).row = ⟨packXYN c 0 0 0, 0xF000⟩ := by intros; rfl) :
    Row.EncodesSelected ⟨packXYN c 0 0 0, 0xF000⟩ :=
  fun w h => ⟨i (fieldX w) (fieldY w) (fieldN w), (hi _ _ _).trans (packXYN_of_class (class_of_selects c h)), hr _ _ _⟩

theorem Row.encodesSelected_xy (c n : Nibble) (i : Nibble → Nibble → Instr)
    (hi : ∀ x y, encode (i x y) = packXYN c x y n := by intros; rfl)
    (hr : ∀ x y, (i x y).row = ⟨packXYN c 0 0 n, 0xF00F⟩ := by intros; rfl) :
    Row.EncodesSelected ⟨packXYN c 0 0 n, 0xF00F⟩ := by
  intro w h
  obtain ⟨hc, hn⟩ := class_n_of_selects c n h
  exact ⟨i (fieldX w) (fieldY w), (hi _ _).trans (packXYN_of_class_n hc hn), hr _ _⟩

theorem Row.encodesSelected_x (c : Nibble) (nn : Byte) (i : Nibble → Instr)
    (hi : ∀ x, encode (i x) = packXNN c x nn := by intros; rfl)
    (hr : ∀ x, (i x).row = ⟨packXNN c 0 nn, 0xF0FF⟩ := by intros; rfl) :
    Row.EncodesSelected ⟨packXNN c 0 nn, 0xF0FF⟩ := by
  intro w h
  obtain ⟨hc, hnn⟩ := class_nn_of_selects c nn h
  exact ⟨i (fieldX w), (hi _).trans (packXNN_of_class_nn hc hnn), hr _⟩

/-- Row by row, in the table's order (30_encoding.md R100). -/
theorem Row.encodesSelected_of_mem : ∀ r ∈ opcodeMap, r.EncodesSelected := by
  simp only [opcodeMap, List.cons_append, List.nil_append, List.forall_mem_cons]
  exact ⟨encodesSelected_word .cls, encodesSelected_word .ret,
    encodesSelected_nnn 0x1 .jp, encodesSelected_nnn 0x2 .call,
    encodesSelected_xnn 0x3 .seImm, encodesSelected_xnn 0x4 .sneImm, encodesSelected_xy 0x5 0x0 .seReg,
    encodesSelected_xnn 0x6 .ldImm, encodesSelected_xnn 0x7 .addImm,
    encodesSelected_xy 0x8 0x0 .ldReg, encodesSelected_xy 0x8 0x1 .orReg, encodesSelected_xy 0x8 0x2 .andReg,
    encodesSelected_xy 0x8 0x3 .xorReg, encodesSelected_xy 0x8 0x4 .addReg, encodesSelected_xy 0x8 0x5 .sub,
    encodesSelected_xy 0x8 0x6 .shr, encodesSelected_xy 0x8 0x7 .subn, encodesSelected_xy 0x8 0xE .shl,
    encodesSelected_xy 0x9 0x0 .sneReg, encodesSelected_nnn 0xA .ldI, encodesSelected_nnn 0xB .jpV0,
    encodesSelected_xnn 0xC .rnd, encodesSelected_xyn 0xD .drw,
    encodesSelected_x 0xE 0x9E .skp, encodesSelected_x 0xE 0xA1 .sknp,
    encodesSelected_x 0xF 0x07 .ldVxDt, encodesSelected_x 0xF 0x0A .ldVxK, encodesSelected_x 0xF 0x15 .ldDtVx,
    encodesSelected_x 0xF 0x18 .ldStVx, encodesSelected_x 0xF 0x1E .addIVx, encodesSelected_x 0xF 0x29 .ldFVx,
    encodesSelected_x 0xF 0x33 .ldBVx, encodesSelected_x 0xF 0x55 .ldMemVx, encodesSelected_x 0xF 0x65 .ldVxMem,
    List.forall_mem_nil _⟩

/-- Settles O3: a word that decodes is an encoding, which its own row selects; a word that a row selects is the encoding
of an instruction of that row, which it decodes to. -/
theorem decodeAgreesWithTheOpcodeMap : Obligations.DecodeAgreesWithTheOpcodeMap := by
  refine ⟨rfl, fun w i h => ?_, fun w r hr h => ?_⟩
  · rw [← encode_of_decodeWord h]
    exact Laws.encoding_statement i
  · obtain ⟨i, rfl, hrow⟩ := Row.encodesSelected_of_mem r hr w h
    exact ⟨i, decodeWord_encode i, hrow⟩

/-! ### The words that are no instruction -/

/-- Class 8 has no instruction at seven low nibbles (30_encoding.md R101). -/
theorem decodeClass8_error_iff (w : Word) :
    (∃ e, decodeClass8 w = .error e) ↔ fieldN w ∈ ([0x8, 0x9, 0xA, 0xB, 0xC, 0xD, 0xF] : List Nibble) := by
  have hcompl : ∀ n : Nibble, n ∈ ([0x8, 0x9, 0xA, 0xB, 0xC, 0xD, 0xF] : List Nibble) ↔
      n ∉ ([0x0, 0x1, 0x2, 0x3, 0x4, 0x5, 0x6, 0x7, 0xE] : List Nibble) := by decide
  rw [hcompl]
  unfold decodeClass8
  split
  case h_10 =>
    simp only [imp_false] at *
    simp [← BitVec.toNat_inj, *]
  all_goals simp [← BitVec.toNat_inj, *]

theorem decodeClassE_error_iff (w : Word) :
    (∃ e, decodeClassE w = .error e) ↔ fieldNN w ∉ ([0x9E, 0xA1] : List Byte) := by
  unfold decodeClassE
  split
  case h_3 =>
    simp only [imp_false] at *
    simp [← BitVec.toNat_inj, *]
  all_goals simp [← BitVec.toNat_inj, *]

theorem decodeClassF_error_iff (w : Word) :
    (∃ e, decodeClassF w = .error e) ↔
      fieldNN w ∉ ([0x07, 0x0A, 0x15, 0x18, 0x1E, 0x29, 0x33, 0x55, 0x65] : List Byte) := by
  unfold decodeClassF
  split
  case h_10 =>
    simp only [imp_false] at *
    simp [← BitVec.toNat_inj, *]
  all_goals simp [← BitVec.toNat_inj, *]

theorem decodeClass0_error_iff (w : Word) : (∃ e, decodeClass0 w = .error e) ↔ w ≠ 0x00E0 ∧ w ≠ 0x00EE := by
  unfold decodeClass0
  by_cases h0 : w = 0x00E0#16
  · simp [h0]
  · by_cases h1 : w = 0x00EE#16 <;> simp [h0, h1]

/-- Settles O4: by the class, of which six refuse some of their words and the other ten none. -/
theorem invalidWordsAreRefusedByClass : Obligations.InvalidWordsAreRefusedByClass := by
  intro w
  rw [← decodeClass8_error_iff, ← decodeClassE_error_iff, ← decodeClassF_error_iff, ← decodeClass0_error_iff]
  simp only [← BitVec.toNat_inj (x := fieldC w)]
  unfold decodeWord
  split
  case h_1 | h_9 | h_15 => simp [*]
  case h_6 | h_10 => by_cases hn : fieldN w = 0#4 <;> simp [*]
  case h_16 =>
    have hc : (fieldC w).toNat = 15 := by
      have hlt := (fieldC w).isLt
      simp only [imp_false] at *
      omega
    simp [hc]
  all_goals simp [*]

end Sys2Proof
end

section
/-! PROOFS. The frames of the remaining state updates: what a write of one field leaves unchanged, one lemma per update,
beside those of pc, a register, I and the grid above. -/

namespace Sys2Proof.Machine

/-- The frame of a write of the return stack. -/
theorem unchanged_setStack (s : State) (st : List Addr) (p : Part) (h : p ≠ .stack) :
    Unchanged p s (s.setStack st) := by
  cases p with
  | stack => exact absurd rfl h
  | _ => rfl

/-- The frame of a write of the delay timer. -/
theorem unchanged_setDT (s : State) (b : Byte) (p : Part) (h : p ≠ .DT) : Unchanged p s (s.setDT b) := by
  cases p with
  | DT => exact absurd rfl h
  | _ => rfl

/-- The frame of a write of the sound timer. -/
theorem unchanged_setST (s : State) (b : Byte) (p : Part) (h : p ≠ .ST) : Unchanged p s (s.setST b) := by
  cases p with
  | ST => exact absurd rfl h
  | _ => rfl

/-- The frame of a write of the status. -/
theorem unchanged_setStatus (s : State) (st : Status) (p : Part) (h : p ≠ .status) :
    Unchanged p s (s.setStatus st) := by
  cases p with
  | status => exact absurd rfl h
  | _ => rfl

/-- The frame of a counted query. -/
theorem unchanged_countDraw (s : State) (p : Part) (h : p ≠ .draws) : Unchanged p s s.countDraw := by
  cases p with
  | draws => exact absurd rfl h
  | _ => rfl

/-- The frame of a write of the whole memory: every part that is no byte reads the same. -/
theorem unchanged_setMem (s : State) (m : Memory) (p : Part) (h : ∀ a, p ≠ .byte a) : Unchanged p s (s.setMem m) := by
  cases p with
  | byte a => exact absurd rfl (h a)
  | _ => rfl

/-- The frame of a write of the register file: every other part, and each register that is written with what it holds. -/
theorem unchanged_setRegs (s : State) (V : Regs) (p : Part)
    (h : ∀ y : Nibble, p = .reg y → V[y.toNat]'y.isLt = s.getV y) :
    Unchanged p s (s.setRegs V) := by
  cases p with
  | reg y => exact h y rfl
  | _ => rfl

end Sys2Proof.Machine
end

section
/-! PROOFS. What an instruction can do (60_exceptions.md section 1): it raises one of three faults under a condition on
the stack or on I, or it commits the state written out here; `exec_eq` says so once, and the whole-machine statements
below are case splits over it. -/

namespace Sys2Proof.Machine

/-- The fault that an instruction raises in a state, if it raises one: underflow, overflow, or the lowest address out of
range of an access through I (60_exceptions.md R245, R247, R248). -/
def raised (i : Instr) (s : State) : Option Raise :=
  match i with
  | .ret => if s.stack = [] then some .stackUnderflow else none
  | .call _ => if s.stack.length < 16 then none else some .stackOverflow
  | i =>
    if accessCount i = 0 ∨ s.I.toNat + accessCount i ≤ 4096 then none
    else some (.outOfRangeAddress (max s.I.toNat 4096 : Nat))

/-- The state that an instruction commits when it raises no fault. -/
def completed (i : Instr) (s : State) : State :=
  match i with
  | .cls => s.advance.setFb fbClear
  | .ret => (s.advance.setStack s.stack.tail).setPc (s.stack.headD 0)
  | .jp nnn => s.setPc (zext16 nnn)
  | .call nnn => (s.advance.setStack ((s.pc + 2) :: s.stack)).setPc (zext16 nnn)
  | .seImm x nn => s.advance.skipIf (s.getV x == nn)
  | .sneImm x nn => s.advance.skipIf (s.getV x != nn)
  | .seReg x y => s.advance.skipIf (s.getV x == s.getV y)
  | .ldImm x nn => s.advance.setV x nn
  | .addImm x nn => s.advance.setV x (s.getV x + nn)
  | .ldReg x y => s.advance.setV x (s.getV y)
  | .orReg x y => s.advance.setV x (s.getV x ||| s.getV y)
  | .andReg x y => s.advance.setV x (s.getV x &&& s.getV y)
  | .xorReg x y => s.advance.setV x (s.getV x ^^^ s.getV y)
  | .addReg x y => s.advance.setVFlag x (s.getV x + s.getV y) (carryOut (s.getV x) (s.getV y))
  | .sub x y => s.advance.setVFlag x (s.getV x - s.getV y) (notBorrow (s.getV x) (s.getV y))
  | .shr x _ => s.advance.setVFlag x (s.getV x >>> 1) (bitOutRight (s.getV x))
  | .subn x y => s.advance.setVFlag x (s.getV y - s.getV x) (notBorrow (s.getV y) (s.getV x))
  | .shl x _ => s.advance.setVFlag x (s.getV x <<< 1) (bitOutLeft (s.getV x))
  | .sneReg x y => s.advance.skipIf (s.getV x != s.getV y)
  | .ldI nnn => s.advance.setI (zext16 nnn)
  | .jpV0 nnn => s.setPc (zext16 nnn + byteAddr (s.getV 0))
  | .rnd x nn => s.advance.countDraw.setV x (randByte s &&& nn)
  | .drw x y n => (s.advance.setFb (drawn x y (Memory.slice s.mem s.I.toNat n.toNat) s).1).setFlag
      (drawn x y (Memory.slice s.mem s.I.toNat n.toNat) s).2
  | .skp x => s.advance.countDraw.skipIf (keyDown s (lowNibble (s.getV x)))
  | .sknp x => s.advance.countDraw.skipIf (!keyDown s (lowNibble (s.getV x)))
  | .ldVxDt x => s.advance.setV x s.DT
  | .ldVxK x => waitKey x (pollKey s) s.advance.countDraw
  | .ldDtVx x => s.advance.setDT (s.getV x)
  | .ldStVx x => s.advance.setST (s.getV x)
  | .addIVx x => s.advance.setI (s.I + byteAddr (s.getV x))
  | .ldFVx x => s.advance.setI (glyphAddr (lowNibble (s.getV x)))
  | .ldBVx x => s.advance.setMem (Memory.putBytes s.mem s.I.toNat (bcdDigits (s.getV x)))
  | .ldMemVx x => s.advance.setMem (Memory.putBytes s.mem s.I.toNat (regsUpTo s.V x))
  | .ldVxMem x => s.advance.setRegs (putRegs 0 (Memory.slice s.mem s.I.toNat (x.toNat + 1)) s.V)

/-! ### The meanings that can fault -/

/-- LD B writes three bytes. -/
@[simp] theorem bcdDigits_length (v : Byte) : (bcdDigits v).length = 3 := rfl

/-- This machine leaves I where it is after Fx55 and Fx65 (decision D17). -/
@[simp] theorem bumpI_params (x : Nibble) (s : State) : bumpI params x s = s := rfl

/-- CALL pushes below the depth and overflows at it (40_control_flow.md R122). -/
theorem callWith_eq (p : Params) (nnn : Addr12) (s : State) :
    callWith p nnn s = .next (if s.stack.length < p.stackDepth
      then (s.advance.setStack ((s.pc + 2) :: s.stack)).setPc (zext16 nnn)
      else takeFault s .stackOverflow (some (encode (.call nnn)))) := by
  rw [callWith, push_eq]
  by_cases h : s.stack.length < p.stackDepth <;> simp [h]

/-- Fx55 stores a block that ends in memory, or faults (43_index_memory.md R204). -/
theorem ldMemVxWith_eq (p : Params) (x : Nibble) (s : State) :
    ldMemVxWith p x s = .next (if s.I.toNat + (x.toNat + 1) ≤ 4096
      then bumpI p x (s.advance.setMem (Memory.putBytes s.mem s.I.toNat (regsUpTo s.V x)))
      else takeFault s (.outOfRangeAddress (max s.I.toNat 4096 : Nat)) (some (encode (.ldMemVx x)))) := by
  rw [ldMemVxWith, storeBytes_eq, baseAddr]
  by_cases h : s.I.toNat + (x.toNat + 1) ≤ 4096 <;> simp [h, regsUpTo_ne_nil]

/-- Fx65 loads a block that ends in memory, or faults (43_index_memory.md R205). -/
theorem ldVxMemWith_eq (p : Params) (x : Nibble) (s : State) :
    ldVxMemWith p x s = .next (if s.I.toNat + (x.toNat + 1) ≤ 4096
      then bumpI p x (s.advance.setRegs (putRegs 0 (Memory.slice s.mem s.I.toNat (x.toNat + 1)) s.V))
      else takeFault s (.outOfRangeAddress (max s.I.toNat 4096 : Nat)) (some (encode (.ldVxMem x)))) := by
  rw [ldVxMemWith, loadBytes_eq, baseAddr]
  by_cases h : s.I.toNat + (x.toNat + 1) ≤ 4096 <;> simp [h]

/-- RET pops, or underflows (40_control_flow.md R120). -/
theorem execRet_eq (s : State) :
    execRet s = .next (if s.stack = [] then takeFault s .stackUnderflow (some (encode .ret))
      else (s.advance.setStack s.stack.tail).setPc (s.stack.headD 0)) := by
  rw [execRet, State.advance_stack]
  cases s.stack <;> rfl

/-- DRW draws the rows it can read, or faults before it draws (42_display.md R181). -/
theorem execDrw_eq (x y n : Nibble) (s : State) :
    execDrw x y n s = .next (if n.toNat = 0 ∨ s.I.toNat + n.toNat ≤ 4096
      then (s.advance.setFb (drawn x y (Memory.slice s.mem s.I.toNat n.toNat) s).1).setFlag
        (drawn x y (Memory.slice s.mem s.I.toNat n.toNat) s).2
      else takeFault s (.outOfRangeAddress (max s.I.toNat 4096 : Nat)) (some (encode (.drw x y n)))) := by
  by_cases h : n.toNat = 0 ∨ s.I.toNat + n.toNat ≤ 4096
  · rw [if_pos h]
    exact exec_drw_of_readable x y n s (h.imp_left BitVec.eq_of_toNat_eq)
  · rw [if_neg h, execDrw, loadBytes_eq, baseAddr, if_neg h, commit_error]

/-- Fx33 stores three digits that end in memory, or faults (43_index_memory.md R203). -/
theorem execLdBVx_eq (x : Nibble) (s : State) :
    execLdBVx x s = .next (if s.I.toNat + 3 ≤ 4096
      then s.advance.setMem (Memory.putBytes s.mem s.I.toNat (bcdDigits (s.getV x)))
      else takeFault s (.outOfRangeAddress (max s.I.toNat 4096 : Nat)) (some (encode (.ldBVx x)))) := by
  have hne : bcdDigits (s.getV x) ≠ [] := nofun
  rw [execLdBVx, storeBytes_eq, baseAddr, bcdDigits_length]
  by_cases h : s.I.toNat + 3 ≤ 4096 <;> simp [h, hne]

/-! ### The end of the key wait, by field -/

section
variable (x : Nibble) (k : Option Nibble) (t : State)

@[simp] theorem waitKey_I : (waitKey x k t).I = t.I := by cases k <;> rfl
@[simp] theorem waitKey_stack : (waitKey x k t).stack = t.stack := by cases k <;> rfl
@[simp] theorem waitKey_DT : (waitKey x k t).DT = t.DT := by cases k <;> rfl
@[simp] theorem waitKey_ST : (waitKey x k t).ST = t.ST := by cases k <;> rfl
@[simp] theorem waitKey_mem : (waitKey x k t).mem = t.mem := by cases k <;> rfl
@[simp] theorem waitKey_fb : (waitKey x k t).fb = t.fb := by cases k <;> rfl
@[simp] theorem waitKey_status : (waitKey x k t).status = t.status := by cases k <;> rfl
@[simp] theorem waitKey_draws : (waitKey x k t).draws = t.draws := by cases k <;> rfl
@[simp] theorem waitKey_pc : (waitKey x k t).pc = if k = none then t.pc - 2 else t.pc := by cases k <;> rfl

theorem waitKey_getV_other (y : Nibble) (h : y ≠ x) : (waitKey x k t).getV y = t.getV y := by
  cases k with
  | none => rfl
  | some key => exact State.getV_setV_other t x y _ h

end

/-! ### Every instruction -/

/-- Every instruction answers a next state: the fault it raises taken, or the state it commits (60_exceptions.md R240,
R243). -/
theorem exec_eq (i : Instr) (s : State) :
    exec i s = .next ((raised i s).elim (completed i s) fun e => takeFault s e (some (encode i))) := by
  cases i
  case ret =>
    refine (execRet_eq s).trans ?_
    by_cases h : s.stack = [] <;> simp [raised, completed, h]
  case call nnn =>
    refine (callWith_eq params nnn s).trans ?_
    rw [show params.stackDepth = 16 from rfl]
    by_cases h : s.stack.length < 16 <;> simp [raised, completed, h]
  case drw x y n =>
    refine (execDrw_eq x y n s).trans ?_
    by_cases h : n.toNat = 0 ∨ s.I.toNat + n.toNat ≤ 4096 <;> simp only [raised, completed, accessCount, h] <;> rfl
  case ldBVx x =>
    refine (execLdBVx_eq x s).trans ?_
    by_cases h : s.I.toNat + 3 ≤ 4096 <;> simp [raised, completed, accessCount, h]
  case ldMemVx x =>
    refine (ldMemVxWith_eq params x s).trans ?_
    by_cases h : s.I.toNat + (x.toNat + 1) ≤ 4096 <;> simp [raised, completed, accessCount, h]
  case ldVxMem x =>
    refine (ldVxMemWith_eq params x s).trans ?_
    by_cases h : s.I.toNat + (x.toNat + 1) ≤ 4096 <;> simp [raised, completed, accessCount, h]
  all_goals rfl

/-- An instruction that raises nothing commits its state. -/
theorem exec_of_not_raised {i : Instr} {s : State} (h : raised i s = none) : exec i s = .next (completed i s) := by
  rw [exec_eq, h]; rfl

/-- An instruction that raises a fault has it taken. -/
theorem exec_of_raised {i : Instr} {s : State} {e : Raise} (h : raised i s = some e) :
    exec i s = .next (takeFault s e (some (encode i))) := by
  rw [exec_eq, h]; rfl

/-- All that an instruction can do: commit its state, or have the fault taken that it raised. -/
theorem exec_cases {i : Instr} {s t : State} (h : exec i s = .next t) :
    (raised i s = none ∧ t = completed i s) ∨ ∃ e, raised i s = some e ∧ t = takeFault s e (some (encode i)) := by
  cases hr : raised i s with
  | none =>
    rw [exec_of_not_raised hr] at h
    cases h; exact .inl ⟨rfl, rfl⟩
  | some e =>
    rw [exec_of_raised hr] at h
    cases h; exact .inr ⟨e, rfl, rfl⟩

end Sys2Proof.Machine
end

section
/-! PROOFS. The step and its faults (20_memory.md section 4, 60_exceptions.md sections 1 and 2): what a step answers by
status, fetch and decode; the fetch as a number; and that a fault commits its record alone. -/

namespace Sys2Proof.Machine

/-! ### The step by status, fetch and decode -/

theorem step_of_halted {s : State} {r : FaultRecord} (h : s.status = .halted r) : step s = .fault (.halted r) := by
  simp only [step, h]

theorem step_of_fetch_error {s : State} {e : Raise} (h : s.status = .running) (hf : fetch s = .error e) :
    step s = .next (takeFault s e none) := by
  simp only [step, h, hf]

theorem step_of_reject {s : State} {w : Word} {e : Reject} (h : s.status = .running) (hf : fetch s = .ok w)
    (hd : decodeWord w = .error e) : step s = .next (takeFault s .invalidOpcode (some w)) := by
  simp only [step, h, hf, hd]

theorem step_of_decoded {s : State} {w : Word} {i : Instr} (h : s.status = .running) (hf : fetch s = .ok w)
    (hd : decodeWord w = .ok i) : step s = exec i s := by
  simp only [step, h, hf, hd]

theorem stepCall_of_halted {s : State} {r : FaultRecord} (h : s.status = .halted r) : stepCall s = (s, .fault r) := by
  simp only [stepCall, step_of_halted h]

theorem stepCall_of_next {s t : State} (h : step s = .next t) : stepCall s = (t, reportOf t.status) := by
  simp only [stepCall, h]

/-- Settles O6: the branches of the step, and what the driver's call makes of its answer. -/
theorem stepFetchesDecodesAndExecutes : Obligations.StepFetchesDecodesAndExecutes :=
  ⟨fun _ _ h => ⟨step_of_halted h, stepCall_of_halted h⟩, fun _ _ _ => step_of_decoded, fun _ _ _ => step_of_reject,
   fun _ _ => step_of_fetch_error, fun _ _ _ => stepCall_of_next⟩

/-- All that a step in Running can do: have a fault of the fetch or of the decoder taken, or execute the instruction at
pc (60_exceptions.md R240). -/
theorem step_running_cases {s : State} (h : s.status = .running) :
    (∃ e w, step s = .next (takeFault s e w)) ∨
      ∃ w i, fetch s = .ok w ∧ decodeWord w = .ok i ∧ step s = exec i s := by
  cases hf : fetch s with
  | error e => exact .inl ⟨_, _, step_of_fetch_error h hf⟩
  | ok w =>
    cases hd : decodeWord w with
    | error e => exact .inl ⟨_, _, step_of_reject h hf hd⟩
    | ok i => exact .inr ⟨w, i, rfl, hd, step_of_decoded h hf hd⟩

/-- A state that answers a next state is Running. -/
theorem running_of_step {s t : State} (h : step s = .next t) : s.status = .running := by
  cases hs : s.status with
  | running => rfl
  | halted r => rw [step_of_halted hs] at h; cases h

/-- Settles O8: each of the step's branches in Running answers a next state. -/
theorem runningStepAlwaysAnswersANextState : Obligations.RunningStepAlwaysAnswersANextState := by
  intro s h
  obtain ⟨e, w, hstep⟩ | ⟨w, i, -, -, hstep⟩ := step_running_cases h
  · exact ⟨_, hstep⟩
  · exact ⟨_, hstep.trans (exec_eq i s)⟩

/-! ### Fetch -/

/-- The big-endian word as a number (20_memory.md R72). -/
theorem joinBytes_eq_ofNat (hi lo : Byte) : joinBytes hi lo = BitVec.ofNat 16 (256 * hi.toNat + lo.toNat) := by
  apply BitVec.eq_of_toNat_eq
  have hhi := hi.isLt
  have hlo := lo.isLt
  rw [joinBytes, BitVec.toNat_append, ← Nat.shiftLeft_add_eq_or_of_lt hlo, Nat.shiftLeft_eq, BitVec.toNat_ofNat,
    Nat.mod_eq_of_lt (by omega)]
  omega

/-- Settles O7: the fetch's range check is on pc + 1, and the byte out of range is the larger of pc and 0x1000. -/
theorem fetchIsBigEndianAndChecked : Obligations.FetchIsBigEndianAndChecked := by
  refine fun s => ⟨fun h => ?_, fetch_last_byte s, fun h => ?_⟩
  · rw [fetch_eq, if_pos (by omega), joinBytes_eq_ofNat]
  · rw [fetch_above s (by omega), Nat.max_eq_left (by omega)]

/-- The words of the opcode table are 16-bit numbers. -/
theorem tableWord_toNat (w : Word) : tableWord 16 w.toNat = w := by
  apply BitVec.eq_of_toNat_eq
  rw [tableWord, BitVec.toNat_ofNat, Nat.mod_mod, Nat.mod_eq_of_lt w.isLt]

@[simp] theorem placeWord_status (s : State) (w : Word) : (placeWord s w).status = s.status := by
  unfold placeWord; split <;> rfl

/-- Settles O9: the placed word is fetched and decoded. -/
theorem stepRunsThePlacedWord : Obligations.StepRunsThePlacedWord := by
  intro s w i hrun hpc hd
  rw [State.withFetchWord, tableWord_toNat]
  exact step_of_decoded (by rw [placeWord_status, hrun]) (fetch_placeWord s w hpc) hd

/-! ### Faults -/

/-- Taking a fault commits the record alone (60_exceptions.md R243). -/
theorem unchanged_takeFault (s : State) (e : Raise) (w : Option Word) (p : Part) (h : p ≠ .status) :
    Unchanged p s (takeFault s e w) :=
  unchanged_setStatus s _ p h

/-- No instruction that completes writes the status (10_state.md R39). -/
theorem completed_status (i : Instr) (s : State) : (completed i s).status = s.status := by
  cases i <;> simp [completed]

/-- An instruction that leaves the status Running has raised no fault. -/
theorem completed_of_running {i : Instr} {s t : State} (h : exec i s = .next t) (ht : t.status = .running) :
    raised i s = none ∧ t = completed i s := by
  obtain hc | ⟨e, -, rfl⟩ := exec_cases h
  · exact hc
  · rw [takeFault_status] at ht; cases ht

/-- An instruction that halts a Running engine has raised a fault, which is taken. -/
theorem raised_of_halted {i : Instr} {s t : State} {r : FaultRecord} (hs : s.status = .running)
    (h : exec i s = .next t) (ht : t.status = .halted r) :
    ∃ e, raised i s = some e ∧ t = takeFault s e (some (encode i)) := by
  obtain ⟨-, rfl⟩ | hf := exec_cases h
  · rw [completed_status, hs] at ht; cases ht
  · exact hf

/-- A step that halts a Running engine has taken a fault and done nothing else (60_exceptions.md R243). -/
theorem step_takes_fault {s t : State} {r : FaultRecord} (hs : s.status = .running) (h : step s = .next t)
    (ht : t.status = .halted r) : ∃ e w, t = takeFault s e w := by
  obtain ⟨e, w, hstep⟩ | ⟨w, i, -, -, hstep⟩ := step_running_cases hs
  · rw [hstep] at h; cases h; exact ⟨e, w, rfl⟩
  · obtain ⟨e, -, rfl⟩ := raised_of_halted hs (hstep.symm.trans h) ht
    exact ⟨e, _, rfl⟩

/-- Settles O47: the fault was taken in the state the step began in, whose pc is in the record. -/
theorem faultingStepCommitsOnlyTheRecord : Obligations.FaultingStepCommitsOnlyTheRecord := by
  intro s t r hs h ht
  obtain ⟨e, w, rfl⟩ := step_takes_fault hs h ht
  rw [takeFault_status] at ht
  cases ht
  exact ⟨rfl, unchanged_takeFault s e w⟩

/-- Which fault each instruction can raise (60_exceptions.md section 2). -/
theorem kind_of_raised {i : Instr} {s : State} {e : Raise} (h : raised i s = some e) :
    (e.kind = .stackUnderflow ∧ i = .ret) ∨ (e.kind = .stackOverflow ∧ ∃ nnn, i = .call nnn) ∨
      (e.kind = .outOfRangeAddress ∧ accessCount i ≠ 0) := by
  unfold raised at h
  split at h
  · split at h <;> cases h
    exact .inl ⟨rfl, rfl⟩
  · split at h <;> cases h
    exact .inr (.inl ⟨rfl, _, rfl⟩)
  · split at h <;> cases h
    rename_i hfits
    exact .inr (.inr ⟨rfl, fun h0 => hfits (.inl h0)⟩)

/-- An instruction that is neither RET nor CALL and accesses no byte raises no fault. -/
theorem raised_eq_none {i : Instr} (s : State) (hret : i ≠ .ret) (hcall : ∀ nnn, i ≠ .call nnn)
    (haccess : accessCount i = 0) : raised i s = none := by
  unfold raised
  split
  · exact absurd rfl hret
  · exact absurd rfl (hcall _)
  · exact if_pos (.inl haccess)

/-- Settles O48: the three faults and their conditions, and completion where none of the conditions can hold. -/
theorem onlyTheListedInstructionsFault : Obligations.OnlyTheListedInstructionsFault := by
  refine ⟨fun i s t r hs h ht => ?_, fun i s hret hcall haccess => ?_⟩
  · obtain ⟨e, he, rfl⟩ := raised_of_halted hs h ht
    rw [takeFault_status] at ht
    cases ht
    exact kind_of_raised he
  · exact ⟨_, exec_of_not_raised (raised_eq_none s hret hcall haccess), completed_status i s⟩

end Sys2Proof.Machine
end

section
/-! PROOFS. Control transfer through the stack and V0 (40_control_flow.md), and pc after any step (10_state.md
section 2). -/

namespace Sys2Proof.Machine

/-! ### RET and CALL -/

/-- The frame of the advance followed by writes of the stack and of pc. -/
theorem unchanged_setStack_setPc (s : State) (st : List Addr) (a : Addr) (p : Part) (hpc : p ≠ .pc) (hst : p ≠ .stack) :
    Unchanged p s ((s.advance.setStack st).setPc a) :=
  ((unchanged_setPc s _ p hpc).trans (unchanged_setStack s.advance st p hst)).trans (unchanged_setPc _ a p hpc)

theorem exec_ret_of_cons {s : State} {a : Addr} {rest : List Addr} (h : s.stack = a :: rest) :
    exec .ret s = .next ((s.advance.setStack rest).setPc a) := by
  rw [exec_of_not_raised (by simp [raised, h])]
  simp [completed, h]

theorem exec_ret_of_nil {s : State} (h : s.stack = []) :
    exec .ret s = .next (takeFault s .stackUnderflow (some 0x00EE)) :=
  exec_of_raised (if_pos h)

theorem exec_call_of_lt (nnn : Addr12) {s : State} (h : s.stack.length < 16) :
    exec (.call nnn) s = .next ((s.advance.setStack ((s.pc + 2) :: s.stack)).setPc (zext16 nnn)) :=
  exec_of_not_raised (if_pos h)

theorem exec_call_of_full (nnn : Addr12) {s : State} (h : 16 ≤ s.stack.length) :
    exec (.call nnn) s = .next (takeFault s .stackOverflow (some (packNNN 0x2 nnn))) :=
  exec_of_raised (if_neg (Nat.not_lt.2 h))

/-- Settles O12: below the depth CALL is a write of the stack and of pc. -/
theorem callPushesTheReturnAddress : Obligations.CallPushesTheReturnAddress :=
  fun nnn s h => ⟨_, exec_call_of_lt nnn h, rfl, rfl, unchanged_setStack_setPc s _ _⟩

/-- Settles O13: the fault is taken in the state the step began in. -/
theorem stackFaultsRecordAndCommitNothing : Obligations.StackFaultsRecordAndCommitNothing :=
  ⟨fun _ h => exec_ret_of_nil h, fun nnn _ h => exec_call_of_full nnn h⟩

/-- Settles O14: RET pops the entry that CALL pushed. -/
theorem retAfterCallReturnsPastTheCall : Obligations.RetAfterCallReturnsPastTheCall :=
  fun nnn _ h => ⟨_, exec_call_of_lt nnn h, fun _ hu => ⟨_, exec_ret_of_cons hu, rfl, rfl⟩⟩

/-! ### JP V0 -/

/-- nnn + V0 does not reach 2^16, so the sum of addresses is the sum of numbers (40_control_flow.md R127). -/
theorem toNat_zext16_add_byteAddr (nnn : Addr12) (b : Byte) :
    (zext16 nnn + byteAddr b).toNat = nnn.toNat + b.toNat := by
  have hn := nnn.isLt
  have hb := b.isLt
  rw [zext16, byteAddr, BitVec.toNat_add, BitVec.toNat_setWidth, BitVec.toNat_setWidth]
  omega

theorem exec_jpV0 (nnn : Addr12) (s : State) :
    exec (.jpV0 nnn) s = .next (s.setPc (zext16 nnn + byteAddr (s.getV 0))) := rfl

/-- Settles O16: JP V0 is a pc write, of a sum that cannot wrap. -/
theorem jpV0AddsV0 : Obligations.JpV0AddsV0 := by
  intro nnn s
  have hpc := toNat_zext16_add_byteAddr nnn (s.getV 0)
  refine ⟨_, exec_jpV0 nnn s, hpc, ?_, unchanged_setPc s _, fun h => ⟨_, fetch_above _ h⟩⟩
  have hn := nnn.isLt
  have hb := (s.getV 0).isLt
  rw [State.setPc_pc, hpc]
  omega

/-! ### pc after a step -/

/-- The skip of SKP and SKNP, between whose advance and test one query is counted. -/
theorem State.skipIf_countDraw_advance (s : State) (c : Bool) :
    s.advance.countDraw.skipIf c = s.countDraw.setPc (if c then s.pc + 4 else s.pc + 2) :=
  State.skipIf_advance s.countDraw c

/-- Settles O17: a step that leaves the engine Running has completed its instruction, whose writes of pc are these. -/
theorem pcAfterAStep : Obligations.PcAfterAStep := by
  intro s t w i hs hf hd h ht
  obtain ⟨hr, rfl⟩ := completed_of_running ((step_of_decoded hs hf hd).symm.trans h) ht
  cases i
  case ret =>
    cases hst : s.stack with
    | nil => simp [raised, hst] at hr
    | cons a rest => simp [completed, hst]
  case seImm | sneImm | seReg | sneReg => simp [completed, State.skipIf_advance]
  case skp => simp [completed, State.skipIf_countDraw_advance]
  case sknp x =>
    cases hk : keyDown s (lowNibble (s.getV x)) <;> simp [completed, State.skipIf_countDraw_advance, hk]
  all_goals simp [completed, zext16, byteAddr]

end Sys2Proof.Machine
end

section
/-! PROOFS. Register loads, arithmetic with a flag and the parameters (41_load_alu.md, 00_scope.md section 3): an
instruction that advances and writes a result and a flag is one shape, proved once; what is left is that the results
and flags on bytes are the numbers the spec writes. -/

namespace Sys2Proof.Machine

/-! ### Results and flags as numbers -/

theorem byte_sub_eq_ofInt (a b : Byte) : a - b = BitVec.ofInt 8 (a.toNat - b.toNat : Int) := by
  apply BitVec.eq_of_toNat_eq
  have ha := a.isLt
  have hb := b.isLt
  rw [BitVec.toNat_sub, BitVec.toNat_ofInt]
  omega

theorem byte_shiftRight_one (a : Byte) : a >>> 1 = BitVec.ofNat 8 (a.toNat / 2) := by
  apply BitVec.eq_of_toNat_eq
  have ha := a.isLt
  rw [BitVec.toNat_ushiftRight, Nat.shiftRight_eq_div_pow, BitVec.toNat_ofNat]
  omega

theorem byte_shiftLeft_one (a : Byte) : a <<< 1 = BitVec.ofNat 8 (2 * a.toNat) := by
  apply BitVec.eq_of_toNat_eq
  rw [BitVec.toNat_shiftLeft, Nat.shiftLeft_eq, BitVec.toNat_ofNat, Nat.mul_comm]

theorem flagByte_carryOut (a b : Byte) : flagByte (carryOut a b) = if 255 < a.toNat + b.toNat then 1 else 0 := by
  simp only [flagByte, carryOut, decide_eq_true_iff]

theorem flagByte_notBorrow (a b : Byte) : flagByte (notBorrow a b) = if b.toNat ≤ a.toNat then 1 else 0 := by
  simp only [flagByte, notBorrow, decide_eq_true_iff]

/-- Bit 0 of a byte is its remainder by 2 (41_load_alu.md R158). -/
theorem flagByte_bitOutRight (a : Byte) : flagByte (bitOutRight a) = BitVec.ofNat 8 (a.toNat % 2) := by
  revert a; decide

/-- Bit 7 of a byte is its quotient by 128 (41_load_alu.md R160). -/
theorem flagByte_bitOutLeft (a : Byte) : flagByte (bitOutLeft a) = BitVec.ofNat 8 (a.toNat / 128) := by
  revert a; decide

/-! ### Copy and bitwise operations -/

/-- Settles O20: each is one register write after the advance. -/
theorem copyAndBitwiseOperations : Obligations.CopyAndBitwiseOperations :=
  fun _ _ => ⟨loadsRegister_of_exec fun _ => rfl, loadsRegister_of_exec fun _ => rfl,
    loadsRegister_of_exec fun _ => rfl, loadsRegister_of_exec fun _ => rfl⟩

/-! ### A result and a flag -/

/-- The result of a write of Vx and of the flag, where the flag does not overwrite it. -/
theorem State.getV_setVFlag_result (s : State) (x : Nibble) (r : Byte) (f : Bool) (h : x ≠ 0xF) :
    (s.setVFlag x r f).getV x = r := by
  rw [State.getV_setVFlag]
  exact (if_neg h).trans (if_pos rfl)

/-- The flag, which is written last. -/
theorem State.getV_setVFlag_flag (s : State) (x : Nibble) (r : Byte) (f : Bool) :
    (s.setVFlag x r f).getV 0xF = flagByte f := by
  rw [State.getV_setVFlag]; rfl

/-- An instruction that advances and then writes a result and a flag loads Vx and VF with them. -/
theorem loadsRegisterAndFlag_of_exec {i : Instr} {x : Nibble} {val flag : State → Byte} (r : State → Byte)
    (f : State → Bool) (hexec : ∀ s, exec i s = .next (s.advance.setVFlag x (r s) (f s))) (hval : ∀ s, r s = val s)
    (hflag : ∀ s, flagByte (f s) = flag s) : LoadsRegisterAndFlag i x val flag := by
  refine fun s => ⟨_, hexec s, fun hx => ?_, ?_, rfl, fun p hpc hx hf => ?_⟩
  · rw [State.getV_setVFlag_result _ _ _ _ hx, hval]
  · rw [State.getV_setVFlag_flag, hflag]
  · have hadvance : Unchanged p s s.advance := unchanged_setPc s _ p hpc
    exact (hadvance.trans (unchanged_setV _ x _ p hx)).trans (unchanged_setV _ 0xF _ p hf)

/-- Settles O21: the sum of bytes wraps, and its flag is the carry. -/
theorem addSetsCarry : Obligations.AddSetsCarry :=
  fun _ _ => loadsRegisterAndFlag_of_exec _ _ (fun _ => rfl) (fun _ => BitVec.add_def ..) fun _ => flagByte_carryOut _ _

/-- Settles O22: the difference of bytes wraps, and its flag is NOT borrow. -/
theorem subtractSetsNotBorrow : Obligations.SubtractSetsNotBorrow :=
  fun _ _ =>
    ⟨loadsRegisterAndFlag_of_exec _ _ (fun _ => rfl) (fun _ => byte_sub_eq_ofInt _ _) fun _ => flagByte_notBorrow _ _,
     loadsRegisterAndFlag_of_exec _ _ (fun _ => rfl) (fun _ => byte_sub_eq_ofInt _ _) fun _ => flagByte_notBorrow _ _⟩

/-- Settles O23: with this machine's parameter the source is Vx. -/
theorem shiftsSetTheBitShiftedOut : Obligations.ShiftsSetTheBitShiftedOut :=
  fun x _ =>
    ⟨loadsRegisterAndFlag_of_exec (fun s => s.getV x >>> 1) (fun s => bitOutRight (s.getV x)) (fun _ => rfl)
       (fun _ => byte_shiftRight_one _) fun _ => flagByte_bitOutRight _,
     loadsRegisterAndFlag_of_exec (fun s => s.getV x <<< 1) (fun s => bitOutLeft (s.getV x)) (fun _ => rfl)
       (fun _ => byte_shiftLeft_one _) fun _ => flagByte_bitOutLeft _⟩

/-! ### The parameters -/

/-- I after the block instructions, whose block ends in memory, so that it does not wrap. -/
theorem bumpI_I_toNat (p : Params) (x : Nibble) (s : State) (h : s.I.toNat + x.toNat ≤ 4095) :
    (bumpI p x s).I.toNat = if p.loadStoreIncrementsI then s.I.toNat + x.toNat + 1 else s.I.toNat := by
  rw [bumpI_eq, State.setI_I]
  split
  · have hx := x.isLt
    rw [BitVec.toNat_add, BitVec.toNat_add, BitVec.toNat_setWidth]
    change ((_ + _) % _ + 1) % _ = _
    omega
  · rfl

/-- I after a block instruction depends on the I it began with alone. -/
theorem bumpI_I_congr (p : Params) (x : Nibble) {s t : State} (h : s.I = t.I) : (bumpI p x s).I = (bumpI p x t).I := by
  rw [bumpI_eq, bumpI_eq, State.setI_I, State.setI_I, h]

/-- Settles O24: each meaning is written for every value of the parameters. -/
theorem parametersSelectTheirVariants : Obligations.ParametersSelectTheirVariants := by
  refine fun p x y s => ⟨⟨_, rfl, fun hx => ?_, ?_⟩, ⟨_, rfl, fun hx => ?_, ?_⟩, fun h => ?_, fun nnn => ?_⟩
  · exact (State.getV_setVFlag_result _ _ _ _ hx).trans (byte_shiftRight_one _)
  · exact (State.getV_setVFlag_flag _ _ _ _).trans (flagByte_bitOutRight _)
  · exact (State.getV_setVFlag_result _ _ _ _ hx).trans (byte_shiftLeft_one _)
  · exact (State.getV_setVFlag_flag _ _ _ _).trans (flagByte_bitOutLeft _)
  · have hfits : s.I.toNat + (x.toNat + 1) ≤ 4096 := by omega
    refine ⟨_, _, ldMemVxWith_eq p x s, ldVxMemWith_eq p x s, ?_, ?_⟩
    · rw [if_pos hfits]
      exact bumpI_I_toNat p x _ h
    · rw [if_pos hfits, if_pos hfits]
      exact bumpI_I_congr p x rfl
  · refine ⟨_, callWith_eq p nnn s, fun h => ?_, fun h => ?_⟩
    · rw [if_pos h]; exact ⟨rfl, rfl⟩
    · rw [if_neg (Nat.not_lt.2 h)]; exact ⟨rfl, rfl⟩

/-! ### RND -/

theorem exec_rnd (x : Nibble) (nn : Byte) (s : State) :
    exec (.rnd x nn) s = .next (s.advance.countDraw.setV x (randByte s &&& nn)) := rfl

/-- A byte under a mask has no bit outside it. -/
theorem and_mask_and_not (r nn : Byte) : (r &&& nn) &&& ~~~nn = 0 := by
  rw [BitVec.and_assoc, BitVec.and_not_self]
  exact BitVec.and_zero

/-- Settles O25: RND writes Vx after counting one query. -/
theorem rndMasksAFreshByte : Obligations.RndMasksAFreshByte := by
  intro x nn s
  have hx : (s.advance.countDraw.setV x (randByte s &&& nn)).getV x = randByte s &&& nn := State.getV_setV_same ..
  refine ⟨_, exec_rnd x nn s, hx, ?_, rfl, rfl, fun p hpc hreg hdraws => ?_⟩
  · rw [hx]; exact and_mask_and_not _ nn
  · have hadvance : Unchanged p s s.advance := unchanged_setPc s _ p hpc
    exact (hadvance.trans (unchanged_countDraw _ p hdraws)).trans (unchanged_setV _ x _ p hreg)

end Sys2Proof.Machine
end

section
/-! PROOFS. The sprite draw as a whole picture (42_display.md R181), drawing twice, and who writes the grid. -/

namespace Sys2Proof.Machine

/-- The rows read from memory have the sprite's bit at every cell. -/
theorem rowsBit_slice (m : Memory) (a n x0 y0 : Nat) (px : Fin 64) (py : Fin 32) :
    rowsBit (Memory.slice m a n) x0 y0 px py = spriteBit m a x0 y0 n px py := by
  unfold rowsBit spriteBit
  rw [Memory.slice_length]
  by_cases h : x0 ≤ px.val ∧ px.val < x0 + 8 ∧ y0 ≤ py.val ∧ py.val < y0 + n
  · rw [slice_getD m a n _ (by omega)]
  · simp [h]

/-- The bit that DRW Vx, Vy, n has at a cell in the state `s`: its sprite's, drawn from the wrapped origin. -/
def drwBit (x y n : Nibble) (s : State) (px : Fin 64) (py : Fin 32) : Bool :=
  spriteBit s.mem s.I.toNat ((s.getV x).toNat % 64) ((s.getV y).toNat % 32) n.toNat px py

/-- The state that DRW commits. -/
theorem completed_drw (x y n : Nibble) (s : State) :
    completed (.drw x y n) s = (s.advance.setFb (drawn x y (Memory.slice s.mem s.I.toNat n.toNat) s).1).setFlag
      (drawn x y (Memory.slice s.mem s.I.toNat n.toNat) s).2 := rfl

section
variable (x y n : Nibble) (s : State)

/-- DRW XORs every cell with the sprite's bit there. -/
theorem completed_drw_cell (px : Fin 64) (py : Fin 32) :
    fbGet (completed (.drw x y n) s).fb px py = (fbGet s.fb px py ^^ drwBit x y n s px py) := by
  rw [completed_drw, State.setFlag_fb, State.setFb_fb, drawn, drawRows_cell, rowsBit_slice]
  rfl

/-- VF after DRW is the collision flag. -/
theorem completed_drw_flag : (completed (.drw x y n) s).getV 0xF =
    flagByte (drawn x y (Memory.slice s.mem s.I.toNat n.toNat) s).2 := by
  rw [completed_drw, State.getV_setFlag]; rfl

/-- The collision flag is set exactly if a sprite bit meets an ON cell. -/
theorem drawn_flag_iff : (drawn x y (Memory.slice s.mem s.I.toNat n.toNat) s).2 = true ↔
    ∃ px py, drwBit x y n s px py = true ∧ fbGet s.fb px py = true := by
  simp only [drawn, drawRows_flag, rowsBit_slice, Bool.false_eq_true, false_or]
  rfl

/-- VF after DRW is 1 exactly if a sprite bit met an ON cell. -/
theorem completed_drw_vf_iff : (completed (.drw x y n) s).getV 0xF = 1 ↔
    ∃ px py, drwBit x y n s px py = true ∧ fbGet s.fb px py = true := by
  rw [completed_drw_flag, ← drawn_flag_iff]
  cases (drawn x y (Memory.slice s.mem s.I.toNat n.toNat) s).2 <;> decide

/-- VF after DRW is 0 where it is not 1. -/
theorem completed_drw_vf_eq_zero (h : ¬ ∃ px py, drwBit x y n s px py = true ∧ fbGet s.fb px py = true) :
    (completed (.drw x y n) s).getV 0xF = 0 := by
  rw [completed_drw_flag, Bool.eq_false_iff.2 (mt (drawn_flag_iff x y n s).1 h)]
  rfl

/-- The frame of DRW: pc, VF and the grid aside, every part is unchanged. -/
theorem unchanged_completed_drw (p : Part) (hpc : p ≠ .pc) (hvf : p ≠ .reg 0xF) (hcell : ∀ px py, p ≠ .cell px py) :
    Unchanged p s (completed (.drw x y n) s) := by
  have hadvance : Unchanged p s s.advance := unchanged_setPc s _ p hpc
  exact (hadvance.trans (unchanged_setFb _ _ p hcell)).trans (unchanged_setV _ 0xF _ p hvf)

/-- A DRW whose rows can be read raises nothing. -/
theorem raised_drw_eq_none (h : n = 0 ∨ s.I.toNat + n.toNat ≤ 4096) : raised (.drw x y n) s = none :=
  if_pos (h.imp_left (congrArg BitVec.toNat))

end

/-- Settles O28: the loops over rows and columns are the whole picture, cell by cell, and so is the flag. -/
theorem drawXorsTheSpriteAndReportsCollision : Obligations.DrawXorsTheSpriteAndReportsCollision :=
  fun x y n s h => ⟨_, exec_of_not_raised (raised_drw_eq_none x y n s h), completed_drw_cell x y n s,
    (completed_drw_vf_iff x y n s).2, completed_drw_vf_eq_zero x y n s, rfl, unchanged_completed_drw x y n s⟩

/-- A draw that does not take its origin from VF has the same sprite at the same origin after itself. -/
theorem drwBit_completed_drw (x y n : Nibble) (s : State) (hx : x ≠ 0xF) (hy : y ≠ 0xF) (px : Fin 64) (py : Fin 32) :
    drwBit x y n (completed (.drw x y n) s) px py = drwBit x y n s px py := by
  have hvx : (completed (.drw x y n) s).getV x = s.getV x :=
    unchanged_completed_drw x y n s (.reg x) nofun (by simpa using hx) nofun
  have hvy : (completed (.drw x y n) s).getV y = s.getV y :=
    unchanged_completed_drw x y n s (.reg y) nofun (by simpa using hy) nofun
  rw [drwBit, hvx, hvy]
  rfl

/-- Settles O29: two equal XORs cancel, and a cell under a sprite bit is ON after the first draw exactly if it was OFF
before. -/
theorem drawingTwiceRestoresTheGrid : Obligations.DrawingTwiceRestoresTheGrid := by
  intro x y n s hx hy h
  refine ⟨completed (.drw x y n) s, completed (.drw x y n) (completed (.drw x y n) s),
    exec_of_not_raised (raised_drw_eq_none x y n s h), exec_of_not_raised (raised_drw_eq_none x y n _ h),
    fun px py => ?_, ?_⟩
  · rw [completed_drw_cell, drwBit_completed_drw x y n s hx hy, completed_drw_cell, Bool.xor_assoc, Bool.xor_self,
      Bool.xor_false]
  · rw [completed_drw_vf_iff]
    simp only [drwBit_completed_drw x y n s hx hy, completed_drw_cell]
    refine exists_congr fun px => exists_congr fun py => and_congr_right fun hbit => ?_
    rw [hbit, Bool.xor_true, Bool.not_eq_true']

/-- An instruction that is neither CLS nor DRW leaves the grid alone. -/
theorem exec_fb_of_ne {i : Instr} {s t : State} (h : exec i s = .next t) (hcls : i ≠ .cls)
    (hdrw : ∀ x y n, i ≠ .drw x y n) : t.fb = s.fb := by
  obtain ⟨-, rfl⟩ | ⟨e, -, rfl⟩ := exec_cases h
  · cases i
    case cls => exact absurd rfl hcls
    case drw => exact absurd rfl (hdrw _ _ _)
    all_goals simp [completed]
  · rfl

/-- A draw from a Running state that leaves it halted has had a fault taken, which keeps the grid. -/
theorem exec_fb_of_not_running {i : Instr} {s t : State} (hs : s.status = .running) (h : exec i s = .next t)
    (ht : t.status ≠ .running) : t.fb = s.fb := by
  obtain ⟨-, rfl⟩ | ⟨e, -, rfl⟩ := exec_cases h
  · exact absurd ((completed_status i s).trans hs) ht
  · rfl

/-- Settles O30: no other instruction's committed state writes the grid, and a fault commits nothing. -/
theorem onlyDrawAndClearWriteTheGrid : Obligations.OnlyDrawAndClearWriteTheGrid := by
  refine ⟨fun i s t h => ?_, fun x y n s t => exec_fb_of_not_running, fun s => ⟨rfl, rfl, rfl⟩⟩
  rintro ⟨px, py, hne⟩
  by_contra! hi
  exact hne (congrArg (fun g => fbGet g px py) (exec_fb_of_ne h hi.1 hi.2))

end Sys2Proof.Machine
end

section
/-! PROOFS. The index register and the transfers through it (43_index_memory.md), the fault of an access that leaves
memory (60_exceptions.md section 2), bulk writes and the canonical form of memory (20_memory.md sections 1 and 2). -/

namespace Sys2Proof.Machine

/-! ### Index arithmetic -/

/-- I + Vx wraps at 16 bits (43_index_memory.md R201). -/
theorem addr_add_byteAddr (a : Addr) (b : Byte) : a + byteAddr b = BitVec.ofNat 16 (a.toNat + b.toNat) := by
  apply BitVec.eq_of_toNat_eq
  have hb := b.isLt
  rw [byteAddr, BitVec.toNat_add, BitVec.toNat_setWidth, BitVec.toNat_ofNat]
  omega

/-- The low nibble of a byte is its remainder by 16. -/
theorem lowNibble_eq_ofNat (b : Byte) : lowNibble b = BitVec.ofNat 4 (b.toNat % 16) := by
  apply BitVec.eq_of_toNat_eq
  rw [lowNibble, BitVec.extractLsb'_toNat, BitVec.toNat_ofNat]
  omega

theorem glyphAddr_lowNibble (b : Byte) : glyphAddr (lowNibble b) = BitVec.ofNat 16 (0x050 + 5 * (b.toNat % 16)) := by
  rw [lowNibble_eq_ofNat, glyphAddr, BitVec.toNat_ofNat, Nat.mod_mod]
  rfl

/-- Settles O32: each is one I write after the advance. -/
theorem indexArithmeticAndGlyphs : Obligations.IndexArithmeticAndGlyphs :=
  fun _ =>
    ⟨loadsIndex_of_exec fun _ => by rw [← addr_add_byteAddr]; rfl,
     loadsIndex_of_exec fun _ => by rw [← glyphAddr_lowNibble]; rfl⟩

/-! ### Accesses through I that stay in memory, and those that leave it -/

/-- An instruction whose accesses through I stay in memory raises nothing. -/
theorem raised_eq_none_of_fits {i : Instr} {s : State} (hi : accessCount i ≠ 0)
    (h : s.I.toNat + accessCount i ≤ 4096) : raised i s = none := by
  unfold raised
  split
  · exact absurd rfl hi
  · exact absurd rfl hi
  · exact if_pos (.inr h)

/-- An instruction whose accesses through I leave memory raises the lowest address out of range. -/
theorem raised_of_not_fits {i : Instr} {s : State} (hi : accessCount i ≠ 0) (h : 4096 < s.I.toNat + accessCount i) :
    raised i s = some (.outOfRangeAddress (max s.I.toNat 4096 : Nat)) := by
  unfold raised
  split
  · exact absurd rfl hi
  · exact absurd rfl hi
  · exact if_neg (by omega)

/-- Settles O36: the fault of the lowest address out of range is taken. -/
theorem memoryFaultsReportTheLowestAddress : Obligations.MemoryFaultsReportTheLowestAddress :=
  fun _ s hi h => ⟨_, exec_of_raised (raised_of_not_fits hi h), rfl, unchanged_takeFault s _ _⟩

/-! ### Writing memory -/

/-- The frame of a block write: every part but the bytes of the block. -/
theorem unchanged_setMem_putBytes (s : State) (a : Nat) (bs : List Byte) (p : Part)
    (h : ∀ k, k < bs.length → p ≠ .byte (a + k)) : Unchanged p s (s.setMem (Memory.putBytes s.mem a bs)) := by
  cases p with
  | byte c =>
    refine (Memory.get_putBytes s.mem a bs c).trans (if_neg fun hc => ?_)
    exact h (c - a) (by omega) (congrArg Part.byte (by omega))
  | _ => rfl

/-- The byte `k` of a block that was written. -/
theorem Memory.get_putBytes_add (m : Memory) (a : Nat) (bs : List Byte) (k : Nat) (h : k < bs.length) :
    Memory.get (Memory.putBytes m a bs) (a + k) = bs.getD k 0 := by
  rw [Memory.get_putBytes, if_pos (by omega), Nat.add_sub_cancel_left]

theorem exec_ldBVx_of_fits (x : Nibble) {s : State} (h : s.I.toNat + 2 ≤ 4095) :
    exec (.ldBVx x) s = .next (s.advance.setMem (Memory.putBytes s.mem s.I.toNat (bcdDigits (s.getV x)))) :=
  exec_of_not_raised (raised_eq_none_of_fits (Nat.succ_ne_zero 2) (by simp only [accessCount]; omega))

/-- Settles O33: LD B is a block write of the three digits. -/
theorem bcdStoresThreeDigits : Obligations.BcdStoresThreeDigits := by
  refine fun x s h => ⟨_, exec_ldBVx_of_fits x h, ?_, ?_, ?_, rfl, fun p hpc hbyte => ?_⟩
  · exact Memory.get_putBytes_add _ _ (bcdDigits (s.getV x)) 0 (by simp)
  · exact Memory.get_putBytes_add _ _ (bcdDigits (s.getV x)) 1 (by simp)
  · exact Memory.get_putBytes_add _ _ (bcdDigits (s.getV x)) 2 (by simp)
  · have hadvance : Unchanged p s s.advance := unchanged_setPc s _ p hpc
    exact hadvance.trans (unchanged_setMem_putBytes s.advance _ _ p hbyte)

theorem exec_ldMemVx_of_fits (x : Nibble) {s : State} (h : s.I.toNat + x.toNat ≤ 4095) :
    exec (.ldMemVx x) s = .next (s.advance.setMem (Memory.putBytes s.mem s.I.toNat (regsUpTo s.V x))) :=
  exec_of_not_raised (raised_eq_none_of_fits (Nat.succ_ne_zero _) (by simp only [accessCount]; omega))

/-- The byte that LD [I], Vx leaves at I + k. -/
theorem get_putBytes_regsUpTo (s : State) (x k : Nibble) (h : k.toNat ≤ x.toNat) :
    Memory.get (Memory.putBytes s.mem s.I.toNat (regsUpTo s.V x)) (s.I.toNat + k.toNat) = s.getV k := by
  rw [Memory.get_putBytes_add _ _ _ _ (by rw [regsUpTo_length]; omega), regsUpTo_getD s x k h]

/-- Settles O34: LD [I] is a block write of V0 to Vx. -/
theorem storeRegistersWritesTheBlock : Obligations.StoreRegistersWritesTheBlock := by
  refine fun x s h => ⟨_, exec_ldMemVx_of_fits x h, fun k => get_putBytes_regsUpTo s x k, rfl, fun p hpc hbyte => ?_⟩
  have hadvance : Unchanged p s s.advance := unchanged_setPc s _ p hpc
  refine hadvance.trans (unchanged_setMem_putBytes s.advance _ _ p fun k hk => ?_)
  have hx := x.isLt
  rw [regsUpTo_length] at hk
  have hk16 : (BitVec.ofNat 4 k).toNat = k := by rw [BitVec.toNat_ofNat]; omega
  have := hbyte (BitVec.ofNat 4 k) (by omega)
  rwa [hk16] at this

/-- Settles O37: the two bytes that a fetch at I + k reads are those stored from Vk and the next register. -/
theorem storedRegistersAreFetchedAsCode : Obligations.StoredRegistersAreFetchedAsCode := by
  refine fun x s h => ⟨_, exec_ldMemVx_of_fits x h, fun k hk => ?_⟩
  have hx := x.isLt
  have hsucc : (k + 1).toNat = k.toNat + 1 := by
    rw [BitVec.toNat_add]
    change (_ + 1) % 16 = _
    omega
  have hpc : (BitVec.ofNat 16 (s.I.toNat + k.toNat)).toNat = s.I.toNat + k.toNat := by
    rw [BitVec.toNat_ofNat]; omega
  have hlow := get_putBytes_regsUpTo s x (k + 1) (by omega)
  rw [hsucc, ← Nat.add_assoc] at hlow
  rw [fetch_eq, State.setPc_pc, State.setPc_mem, State.setMem_mem, hpc, if_pos (by omega),
    get_putBytes_regsUpTo s x k (by omega), hlow]
  rfl

/-! ### Loading registers -/

theorem exec_ldVxMem_of_fits (x : Nibble) {s : State} (h : s.I.toNat + x.toNat ≤ 4095) :
    exec (.ldVxMem x) s =
      .next (s.advance.setRegs (putRegs 0 (Memory.slice s.mem s.I.toNat (x.toNat + 1)) s.V)) :=
  exec_of_not_raised (raised_eq_none_of_fits (Nat.succ_ne_zero _) (by simp only [accessCount]; omega))

/-- A register after LD Vx, [I]: V0 to Vx are loaded, the others are kept. -/
theorem putRegs_slice_getElem (s : State) (x y : Nibble) :
    (putRegs 0 (Memory.slice s.mem s.I.toNat (x.toNat + 1)) s.V)[y.toNat]'y.isLt =
      if y.toNat ≤ x.toNat then Memory.get s.mem (s.I.toNat + y.toNat) else s.getV y := by
  rw [putRegs_getElem _ _ _ _ y.isLt, Memory.slice_length]
  by_cases h : y.toNat ≤ x.toNat
  · rw [if_pos (by omega), if_pos h, Nat.sub_zero, slice_getD _ _ _ _ (by omega)]
  · rw [if_neg (by omega), if_neg h]
    rfl

/-- Settles O35: LD Vx, [I] is a write of the register file that keeps the registers above Vx. -/
theorem loadRegistersReadsTheBlock : Obligations.LoadRegistersReadsTheBlock := by
  refine fun x s h => ⟨_, exec_ldVxMem_of_fits x h, fun k hk => ?_, rfl, fun p hpc hreg => ?_⟩
  · exact (putRegs_slice_getElem s x k).trans (if_pos hk)
  · have hadvance : Unchanged p s s.advance := unchanged_setPc s _ p hpc
    refine hadvance.trans (unchanged_setRegs s.advance _ p fun y hy => ?_)
    exact (putRegs_slice_getElem s x y).trans (if_neg fun hyx => hreg y hyx hy)

/-! ### bulk_write -/

/-- A block in range has no address out of range. -/
theorem firstOutOfRange_eq_none (start : Int) (vs : List Nat)
    (h : ∀ k : Nat, k < vs.length → 0 ≤ start + k ∧ start + k ≤ 4095) : firstOutOfRange start vs = none := by
  induction vs generalizing start with
  | nil => rfl
  | cons v vs ih =>
    have hstart := h 0 (Nat.succ_pos _)
    rw [firstOutOfRange, if_pos ((inRange_iff start).2 (by omega))]
    refine ih _ fun k hk => ?_
    have := h (k + 1) (Nat.succ_lt_succ hk)
    omega

/-- The first address out of range is found. -/
theorem firstOutOfRange_eq_some (start : Int) (vs : List Nat) (k : Nat) (hk : k < vs.length)
    (hout : ¬ (0 ≤ start + k ∧ start + k ≤ 4095)) (hin : ∀ j : Nat, j < k → 0 ≤ start + j ∧ start + j ≤ 4095) :
    firstOutOfRange start vs = some (start + k) := by
  induction vs generalizing start k with
  | nil => exact absurd hk (Nat.not_lt_zero k)
  | cons v vs ih =>
    rw [firstOutOfRange]
    cases k with
    | zero =>
      rw [if_neg (by rw [inRange_iff]; omega), Nat.cast_zero, add_zero]
    | succ k =>
      have hstart := hin 0 (Nat.succ_pos k)
      rw [if_pos ((inRange_iff start).2 (by omega)),
        ih (start + 1) k (Nat.lt_of_succ_lt_succ hk) (by omega) fun j hj => by have := hin (j + 1) (by omega); omega]
      exact congrArg some (by omega)

/-- The number at an index of a block, as the byte that is stored. -/
theorem getD_map_ofNat (vs : List Nat) (k : Nat) :
    (vs.map (BitVec.ofNat 8)).getD k 0 = BitVec.ofNat 8 (vs.getD k 0) := by
  rw [List.getD_eq_getElem?_getD, List.getD_eq_getElem?_getD, List.getElem?_map]
  cases vs[k]? <;> rfl

/-- Settles O39: the search for an address out of range decides, and a block in range is one block write. -/
theorem bulkWriteIsAllOrNothing : Obligations.BulkWriteIsAllOrNothing := by
  refine ⟨fun m start vs h => ?_, fun m start vs k hk hout hin => ?_⟩
  · have hlen : (vs.map (BitVec.ofNat 8)).length = vs.length := List.length_map ..
    refine ⟨putAll m start.toNat vs, ?_, fun k hk => ?_, fun c hc => ?_⟩
    · simp only [bulkWrite, firstOutOfRange_eq_none start vs h]
    · have hstart := h 0 (by omega)
      rw [putAll_eq, show (start + k).toNat = start.toNat + k by omega, Memory.get_putBytes_add _ _ _ _ (by omega),
        getD_map_ofNat]
    · rw [putAll_eq, Memory.get_putBytes, if_neg]
      intro hmem
      have hk : c - start.toNat < vs.length := by omega
      have hstart := h 0 (by omega)
      exact hc (c - start.toNat) hk (by omega)
  · simp only [bulkWrite, firstOutOfRange_eq_some start vs k hk hout hin]

/-! ### The canonical form -/

/-- A canonical memory lists exactly the bytes that read other than when they are unlisted. -/
theorem Memory.mem_iff_get {m : Memory} (h : Memory.wf m) (c : Host.Cell) :
    c ∈ m ↔ Memory.get m c.1 = c.2 ∧ c.2 ≠ Memory.unlisted c.1 := by
  induction m with
  | nil =>
    rw [Memory.get]
    exact ⟨nofun, fun ⟨hget, hne⟩ => absurd hget.symm hne⟩
  | cons d m ih =>
    obtain ⟨hsorted, hcells⟩ := h
    rw [List.pairwise_cons] at hsorted
    obtain ⟨hhead, hsorted⟩ := hsorted
    have htail := ih ⟨hsorted, fun e he => hcells e (List.mem_cons_of_mem d he)⟩
    rw [List.mem_cons, Memory.get]
    by_cases hd : d.1 = c.1
    · have hnotin : c ∉ m := fun hc => absurd (hhead c hc) (by omega)
      have hne := (hcells d List.mem_cons_self).2
      rw [if_pos hd]
      constructor
      · rintro (rfl | hc)
        · exact ⟨rfl, hne⟩
        · exact absurd hc hnotin
      · rintro ⟨hv, -⟩
        exact .inl (Prod.ext hd hv).symm
    · have hcd : c ≠ d := fun e => hd (congrArg Prod.fst e).symm
      rw [if_neg hd, ← htail]
      exact or_iff_right hcd

/-- Settles O40: the entries are the bytes that read other than when they are unlisted, in their one order. -/
theorem canonicalMemoryIsDeterminedByItsReads : Obligations.CanonicalMemoryIsDeterminedByItsReads := by
  intro m m' h h' hget
  have hirrefl : Std.Irrefl fun p q : Host.Cell => p.1 < q.1 := ⟨fun p => lt_irrefl p.1⟩
  have hantisymm : Std.Antisymm fun p q : Host.Cell => p.1 < q.1 := ⟨fun p q hpq hqp => absurd hpq (lt_asymm hqp)⟩
  refine List.Pairwise.eq_of_mem_iff h.1 h'.1 fun c => ?_
  rw [Memory.mem_iff_get h, Memory.mem_iff_get h', hget]

end Sys2Proof.Machine
end

section
/-! PROOFS. Keyboard and timers (44_keys_timers.md, 10_state.md section 5): the key skips and the key wait on one fresh
answer, the timer transfers, and what ticks do in finite and infinite histories. -/

namespace Sys2Proof.Machine

/-! ### Keys -/

/-- The frame of a counted query and a write of pc. -/
theorem unchanged_countDraw_setPc (s : State) (a : Addr) (p : Part) (hpc : p ≠ .pc) (hdraws : p ≠ .draws) :
    Unchanged p s (s.countDraw.setPc a) :=
  (unchanged_countDraw s p hdraws).trans (unchanged_setPc s.countDraw a p hpc)

theorem exec_skp (x : Nibble) (s : State) : exec (.skp x) s = .next (s.countDraw.setPc
    (if Config.keyDown s.draws (BitVec.ofNat 4 ((s.getV x).toNat % 16)) = true then s.pc + 4 else s.pc + 2)) := by
  rw [← lowNibble_eq_ofNat, ← State.skipIf_countDraw_advance]
  rfl

theorem exec_sknp (x : Nibble) (s : State) : exec (.sknp x) s = .next (s.countDraw.setPc
    (if Config.keyDown s.draws (BitVec.ofNat 4 ((s.getV x).toNat % 16)) = true then s.pc + 2 else s.pc + 4)) := by
  change Host.Outcome.next (s.advance.countDraw.skipIf (!Config.keyDown s.draws (lowNibble (s.getV x)))) = _
  rw [State.skipIf_countDraw_advance, lowNibble_eq_ofNat]
  cases Config.keyDown s.draws (BitVec.ofNat 4 ((s.getV x).toNat % 16)) <;> rfl

/-- Settles O41: each is one counted query and one pc write. -/
theorem keySkipsFollowOneFreshAnswer : Obligations.KeySkipsFollowOneFreshAnswer :=
  fun x s => ⟨⟨_, exec_skp x s, rfl, rfl, unchanged_countDraw_setPc s _⟩,
    ⟨_, exec_sknp x s, rfl, rfl, unchanged_countDraw_setPc s _⟩⟩

theorem exec_ldVxK (x : Nibble) (s : State) :
    exec (.ldVxK x) s = .next (waitKey x (Config.pollKey s.draws) s.advance.countDraw) := rfl

/-- With no key, pc is back at the word, and the query has been counted (44_keys_timers.md R224). -/
theorem waitKey_none (x : Nibble) (s : State) : waitKey x none s.advance.countDraw = s.countDraw := by
  change s.countDraw.setPc (s.pc + 2 - 2) = s.countDraw
  rw [BitVec.add_sub_cancel]
  rfl

/-- Settles O42: the two ends of the wait. -/
theorem keyWaitStoresTheKeyOrRetries : Obligations.KeyWaitStoresTheKeyOrRetries := by
  refine fun x s => ⟨_, exec_ldVxK x s, waitKey_draws .., ?_⟩
  cases Config.pollKey s.draws with
  | some k =>
    refine ⟨?_, rfl, fun p hpc hreg hdraws => ?_⟩
    · exact (State.getV_setV_same _ x _).trans (BitVec.ofNat_toNat ..).symm
    · exact (unchanged_countDraw_setPc s (s.pc + 2) p hpc hdraws).trans (unchanged_setV _ x _ p hreg)
  | none =>
    rw [waitKey_none]
    exact unchanged_countDraw s

/-- Settles O43: a counted query is all that a poll without a key leaves, and the fetch does not see it. -/
theorem keyWaitRunsTheSameWordAgain : Obligations.KeyWaitRunsTheSameWordAgain := by
  intro x s hs hf
  have hstep := step_of_decoded hs hf (decodeWord_encode (.ldVxK x))
  refine ⟨_, hstep.trans (exec_ldVxK x s), (waitKey_status ..).trans hs, ?_⟩
  cases Config.pollKey s.draws with
  | some k => trivial
  | none =>
    rw [waitKey_none]
    exact ⟨rfl, rfl, unchanged_countDraw s⟩

/-! ### Timer transfers -/

theorem exec_ldDtVx (x : Nibble) (s : State) : exec (.ldDtVx x) s = .next (s.advance.setDT (s.getV x)) := rfl

theorem exec_ldStVx (x : Nibble) (s : State) : exec (.ldStVx x) s = .next (s.advance.setST (s.getV x)) := rfl

/-- Settles O44: each is one write after the advance. -/
theorem timerTransfers : Obligations.TimerTransfers :=
  fun x => ⟨loadsRegister_of_exec fun _ => rfl,
    fun s => ⟨_, exec_ldDtVx x s, rfl, rfl,
      fun p hpc hdt => Unchanged.trans (t := s.advance) (unchanged_setPc s _ p hpc) (unchanged_setDT _ _ p hdt)⟩,
    fun s => ⟨_, exec_ldStVx x s, rfl, rfl,
      fun p hpc hst => Unchanged.trans (t := s.advance) (unchanged_setPc s _ p hpc) (unchanged_setST _ _ p hst)⟩⟩

/-! ### Ticks -/

/-- A tick takes one off a timer, floored at 0 (10_state.md R34). -/
theorem tickDown_toNat (b : Byte) : (tickDown b).toNat = b.toNat - 1 := by
  unfold tickDown
  split
  · rename_i h; rw [h]; rfl
  · rename_i h
    have hb := b.isLt
    have hpos : b.toNat ≠ 0 := fun h0 => h (BitVec.eq_of_toNat_eq h0)
    rw [BitVec.toNat_sub]
    change (256 - 1 + _) % 256 = _
    omega

/-- The parts that are not the timers read the same. -/
def OnlyTimersMoved (s t : State) : Prop := ∀ p, p ≠ .DT → p ≠ .ST → Unchanged p s t

theorem OnlyTimersMoved.refl (s : State) : OnlyTimersMoved s s := fun p _ _ => by cases p <;> rfl

theorem OnlyTimersMoved.trans {s t u : State} (hst : OnlyTimersMoved s t) (htu : OnlyTimersMoved t u) :
    OnlyTimersMoved s u :=
  fun p hdt hst' => (hst p hdt hst').trans (htu p hdt hst')

theorem onlyTimersMoved_tickTimers (s : State) : OnlyTimersMoved s (tickTimers s) :=
  fun p hdt hst => (unchanged_setDT s _ p hdt).trans (unchanged_setST _ _ p hst)

/-- What `k` ticks leave, by induction on `k` (10_state.md R34). -/
theorem history_ticks (s : State) (k : Nat) :
    (history s (List.replicate k .tick)).DT.toNat = s.DT.toNat - k ∧
    (history s (List.replicate k .tick)).ST.toNat = s.ST.toNat - k ∧
    OnlyTimersMoved s (history s (List.replicate k .tick)) := by
  induction k generalizing s with
  | zero => exact ⟨rfl, rfl, OnlyTimersMoved.refl s⟩
  | succ k ih =>
    obtain ⟨hdt, hst, hparts⟩ := ih (tickTimers s)
    refine ⟨hdt.trans ?_, hst.trans ?_, (onlyTimersMoved_tickTimers s).trans hparts⟩
    · rw [show (tickTimers s).DT.toNat = s.DT.toNat - 1 from tickDown_toNat s.DT]; omega
    · rw [show (tickTimers s).ST.toNat = s.ST.toNat - 1 from tickDown_toNat s.ST]; omega

/-- A number that ticks lower by one, floored at 0, and that nothing else changes is 0 from some action on, if ticks
keep occurring. -/
theorem eventually_zero_of_ticks {acts : Nat → Action} (hfair : TicksKeepOccurring acts) (f : Nat → Nat)
    (htick : ∀ n, acts n = .tick → f (n + 1) = f n - 1) (hrest : ∀ n, acts n ≠ .tick → f (n + 1) = f n) :
    ∃ n, ∀ m, n ≤ m → f m = 0 := by
  have hanti : Antitone f := antitone_nat_of_succ_le fun n => by
    by_cases h : acts n = .tick
    · rw [htick n h]; omega
    · rw [hrest n h]
  have hreach : ∀ v n, f n ≤ v → ∃ m, f m = 0 := by
    intro v
    induction v with
    | zero => exact fun n hn => ⟨n, Nat.le_zero.1 hn⟩
    | succ v ih =>
      intro n hn
      obtain ⟨m, hnm, hm⟩ := hfair n
      have hle := hanti hnm
      exact ih (m + 1) (by rw [htick m hm]; omega)
  obtain ⟨n, hn⟩ := hreach (f 0) 0 le_rfl
  exact ⟨n, fun m hm => Nat.le_zero.1 (hn ▸ hanti hm)⟩

/-- A timer that ticks lower and no step changes is 0 from some action on, if ticks keep occurring (10_state.md R35). -/
theorem timer_reaches_zero (timer : State → Byte) (htimer : ∀ s, timer (tickTimers s) = tickDown (timer s)) (s : State)
    {acts : Nat → Action} (hfair : TicksKeepOccurring acts)
    (hstep : ∀ n, acts n = .step → timer (run s acts (n + 1)) = timer (run s acts n)) :
    ∃ n, ∀ m, n ≤ m → timer (run s acts m) = 0 := by
  have htick : ∀ n, acts n = .tick → (timer (run s acts (n + 1))).toNat = (timer (run s acts n)).toNat - 1 := by
    intro n h
    rw [run_succ, h, ← tickDown_toNat, ← htimer]
    rfl
  have hrest : ∀ n, acts n ≠ .tick → (timer (run s acts (n + 1))).toNat = (timer (run s acts n)).toNat := by
    intro n h
    cases ha : acts n with
    | tick => exact absurd ha h
    | step => exact congrArg BitVec.toNat (hstep n ha)
    | snapshot => rw [run_succ, ha]; rfl
  obtain ⟨n, hn⟩ := eventually_zero_of_ticks hfair (fun n => (timer (run s acts n)).toNat) htick hrest
  exact ⟨n, fun m hm => BitVec.eq_of_toNat_eq (hn m hm)⟩

/-- Settles O45: `k` ticks by induction, and fair histories by the descent of each timer. -/
theorem ticksCountBothTimersDown : Obligations.TicksCountBothTimersDown :=
  ⟨history_ticks, fun s _ => timer_reaches_zero State.DT (fun _ => rfl) s,
    fun s _ => timer_reaches_zero State.ST (fun _ => rfl) s⟩

/-- The sound is on exactly while ST is above 0 (10_state.md R36). -/
theorem soundOn_eq (s : State) : soundOn s = decide (0 < s.ST.toNat) := by
  rw [Bool.eq_iff_iff, soundOn, bne_iff_ne, decide_eq_true_iff, Nat.pos_iff_ne_zero, ne_eq, ← BitVec.toNat_inj]
  rfl

/-- Settles O46: ST is Vx minus the ticks. -/
theorem soundLastsAsManyTicksAsVx : Obligations.SoundLastsAsManyTicksAsVx := by
  refine fun x s => ⟨_, exec_ldStVx x s, fun k => ?_⟩
  obtain ⟨-, hst, -⟩ := history_ticks (s.advance.setST (s.getV x)) k
  rw [soundOn_eq, hst, State.setST_ST, decide_eq_decide]
  omega

end Sys2Proof.Machine
end

section
/-! PROOFS. Who writes what, and what no instruction reads (10_state.md sections 3 to 7): each a case split over the
states that instructions commit, a fault writing the status alone. -/

namespace Sys2Proof.Machine

/-! ### Writers -/

/-- Settles O57: a fault writes none of these parts, and each committed state writes those it names. -/
theorem onlyTheListedWritersWrite : Obligations.OnlyTheListedWritersWrite := by
  intro i s t h
  obtain ⟨-, rfl⟩ | ⟨e, -, rfl⟩ := exec_cases h
  · cases i <;> simp [completed]
  · simp

/-- A register write that changes VF is a write of VF. -/
theorem eq_vf_of_setV_ne {s : State} {x : Nibble} {b : Byte} (h : (s.setV x b).getV 0xF ≠ s.getV 0xF) : x = 0xF := by
  by_contra hx
  exact h (State.getV_setV_other s x 0xF b (Ne.symm hx))

/-- A key wait that changes VF stores the key there. -/
theorem eq_vf_of_waitKey_ne {t : State} {x : Nibble} {k : Option Nibble}
    (h : (waitKey x k t).getV 0xF ≠ t.getV 0xF) : x = 0xF := by
  by_contra hx
  exact h (waitKey_getV_other x k t 0xF (Ne.symm hx))

/-- A block load that changes VF loads all sixteen registers. -/
theorem eq_vf_of_putRegs_ne {s : State} {x : Nibble}
    (h : (putRegs 0 (Memory.slice s.mem s.I.toNat (x.toNat + 1)) s.V)[(0xF : Nibble).toNat]'(0xF : Nibble).isLt ≠
      s.getV 0xF) : x = 0xF := by
  rw [putRegs_slice_getElem] at h
  have hle : (0xF : Nibble).toNat ≤ x.toNat := by
    by_contra hlt
    exact h (if_neg hlt)
  have hx := x.isLt
  exact BitVec.eq_of_toNat_eq (by change _ = 15; change 15 ≤ _ at hle; omega)

/-- Settles O58: what an instruction commits changes VF as a flag or in its destination register. -/
theorem onlyFlagWritersTouchVF : Obligations.OnlyFlagWritersTouchVF := by
  intro i s t h hvf
  obtain ⟨-, rfl⟩ | ⟨e, -, rfl⟩ := exec_cases h
  · cases i
    case addReg x y | sub x y | subn x y | shr x y | shl x y => exact .inl ⟨x, y, by simp⟩
    case drw x y n => exact .inr (.inl ⟨x, y, n, rfl⟩)
    case ldImm x nn | addImm x nn | rnd x nn =>
      obtain rfl := eq_vf_of_setV_ne hvf
      exact .inr (.inr (.inl ⟨nn, by simp⟩))
    case ldReg x y | orReg x y | andReg x y | xorReg x y =>
      obtain rfl := eq_vf_of_setV_ne hvf
      exact .inr (.inr (.inr (.inl ⟨y, by simp⟩)))
    case ldVxDt x =>
      obtain rfl := eq_vf_of_setV_ne hvf
      simp
    case ldVxK x =>
      obtain rfl := eq_vf_of_waitKey_ne hvf
      simp
    case ldVxMem x =>
      obtain rfl := eq_vf_of_putRegs_ne hvf
      simp
    all_goals exact absurd rfl hvf
  · exact absurd rfl hvf

/-! ### What no instruction reads -/

theorem raised_setST (i : Instr) (s : State) (b : Byte) : raised i (s.setST b) = raised i s := rfl

theorem raised_setStatus (i : Instr) (s : State) (st : Status) : raised i (s.setStatus st) = raised i s := rfl

theorem waitKey_setST (x : Nibble) (k : Option Nibble) (t : State) (b : Byte) :
    waitKey x k (t.setST b) = (waitKey x k t).setST b := by cases k <;> rfl

theorem waitKey_setStatus (x : Nibble) (k : Option Nibble) (t : State) (st : Status) :
    waitKey x k (t.setStatus st) = (waitKey x k t).setStatus st := by cases k <;> rfl

/-- What an instruction commits depends on ST at most in ST itself. -/
theorem completed_setST (i : Instr) (s : State) (b : Byte) :
    (completed i (s.setST b)).setST 0 = (completed i s).setST 0 := by
  cases i
  case ldVxK x =>
    change (waitKey x (pollKey s) (s.advance.countDraw.setST b)).setST 0 = _
    rw [waitKey_setST]
    rfl
  all_goals rfl

/-- What an instruction commits depends on the status in the status itself. -/
theorem completed_setStatus (i : Instr) (s : State) (st : Status) :
    completed i (s.setStatus st) = (completed i s).setStatus st := by
  cases i
  case ldVxK x => exact waitKey_setStatus x (pollKey s) s.advance.countDraw st
  all_goals rfl

/-- Settles O59: neither the fault raised nor the state committed reads ST. -/
theorem noInstructionReadsTheSoundTimer : Obligations.NoInstructionReadsTheSoundTimer := by
  intro i s t b h
  obtain ⟨hr, rfl⟩ | ⟨e, hr, rfl⟩ := exec_cases h
  · exact ⟨_, exec_of_not_raised ((raised_setST i s b).trans hr), completed_setST i s b⟩
  · exact ⟨_, exec_of_raised ((raised_setST i s b).trans hr), rfl⟩

/-- Settles O60: neither the fault raised nor the state committed reads the status. -/
theorem noInstructionReadsTheStatus : Obligations.NoInstructionReadsTheStatus := by
  intro i s t st h
  obtain ⟨hr, rfl⟩ | ⟨e, hr, rfl⟩ := exec_cases h
  · refine ⟨_, exec_of_not_raised ((raised_setStatus i s st).trans hr), ?_⟩
    rw [completed_setStatus]
    rfl
  · exact ⟨_, exec_of_raised ((raised_setStatus i s st).trans hr), rfl⟩

end Sys2Proof.Machine
end

section
/-! PROOFS. The invariant (10_state.md sections 2 and 4, 60_exceptions.md section 1) at reset and over a step: a fault
keeps every part but the status, and an instruction that completes keeps each part through the writers of that part. -/

namespace Sys2Proof.Machine

/-- Settles O54: nothing is listed in memory, the stack is empty, and the status is Running. -/
theorem resetSatisfiesTheInvariant : Obligations.ResetSatisfiesTheInvariant :=
  ⟨Memory.wf_nil, by decide, ⟨Nat.zero_le _, nofun⟩, nofun⟩

/-- Taking a fault keeps the invariant: pc stays, and the record holds it. -/
theorem machineInv_takeFault {s : State} (h : MachineInv s) (e : Raise) (w : Option Word) :
    MachineInv (takeFault s e w) := by
  obtain ⟨hmem, hpc, hstack, -⟩ := h
  refine ⟨hmem, hpc, hstack, fun r hr => .inl ?_⟩
  rw [takeFault_status] at hr
  cases hr
  rfl

/-- pc where a word was fetched is at most 0xFFE (60_exceptions.md R241). -/
theorem pc_le_of_fetch {s : State} {w : Word} (h : fetch s = .ok w) : s.pc.toNat ≤ 0xFFE := by
  by_contra! hlt
  rw [fetch_above s (by omega)] at h
  cases h

/-- An instruction that raises nothing accesses only bytes of memory. -/
theorem fits_of_not_raised {i : Instr} {s : State} (hi : accessCount i ≠ 0) (hr : raised i s = none) :
    s.I.toNat + accessCount i ≤ 4096 := by
  by_contra! hlt
  rw [raised_of_not_fits hi hlt] at hr
  cases hr

/-- An instruction that completes keeps memory in canonical form: its two writers of memory write blocks within it. -/
theorem wf_completed {i : Instr} {s : State} (h : Memory.wf s.mem) (hr : raised i s = none) :
    Memory.wf (completed i s).mem := by
  obtain ⟨-, -, -, -, hwriters, -⟩ := onlyTheListedWritersWrite i s _ (exec_of_not_raised hr)
  by_cases hmem : (completed i s).mem = s.mem
  · rw [hmem]
    exact h
  · have hfits := fun hi => fits_of_not_raised hi hr
    obtain ⟨x, rfl⟩ | ⟨x, rfl⟩ := hwriters hmem
    · exact Memory.wf_putBytes _ _ _ h (.inr (hfits (Nat.succ_ne_zero 2)))
    · refine Memory.wf_putBytes _ _ _ h (.inr ?_)
      rw [regsUpTo_length]
      exact hfits (Nat.succ_ne_zero _)

/-- The address of the word after a fetched one. -/
theorem toNat_add_two {a : Addr} (h : a.toNat ≤ 0xFFE) : (a + 2).toNat = a.toNat + 2 := by
  rw [BitVec.toNat_add]
  change (_ + 2) % 65536 = _
  omega

/-- The address that a taken skip goes to. -/
theorem toNat_add_four {a : Addr} (h : a.toNat ≤ 0xFFE) : (a + 4).toNat = a.toNat + 4 := by
  rw [BitVec.toNat_add]
  change (_ + 4) % 65536 = _
  omega

/-- A CALL that completes has room on the stack. -/
theorem length_lt_of_call_not_raised {nnn : Addr12} {s : State} (hr : raised (.call nnn) s = none) :
    s.stack.length < 16 := by
  by_contra hfull
  rw [raised, if_neg hfull] at hr
  cases hr

/-- An instruction that completes leaves the stack within its bounds: RET shortens it, and a CALL below the depth pushes
the address after a fetched word. -/
theorem stackBounded_completed {i : Instr} {s : State} (h : stackBounded s) (hpc : s.pc.toNat ≤ 0xFFE)
    (hr : raised i s = none) : stackBounded (completed i s) := by
  obtain ⟨hwriters, -⟩ := onlyTheListedWritersWrite i s _ (exec_of_not_raised hr)
  by_cases hstack : (completed i s).stack = s.stack
  · rw [stackBounded, hstack]
    exact h
  · obtain ⟨hlen, haddr⟩ := h
    obtain rfl | ⟨nnn, rfl⟩ := hwriters hstack
    · have htail : s.stack.tail.length ≤ s.stack.length := (List.tail_sublist s.stack).length_le
      exact ⟨htail.trans hlen, fun a ha => haddr a (List.mem_of_mem_tail ha)⟩
    · refine ⟨length_lt_of_call_not_raised hr, List.forall_mem_cons.2 ⟨?_, haddr⟩⟩
      rw [toNat_add_two hpc]
      omega

/-- pc at a fetched word, at the next or past it is within its bound. -/
theorem pcBounded_of_near {s t : State} (hpc : s.pc.toNat ≤ 0xFFE)
    (h : t.pc = s.pc ∨ t.pc = s.pc + 2 ∨ t.pc = s.pc + 4) : pcBounded t := by
  have h2 := toNat_add_two hpc
  have h4 := toNat_add_four hpc
  unfold pcBounded
  obtain h | h | h := h <;> rw [h] <;> omega

/-- A step that leaves the engine Running leaves pc within its bound (10_state.md R26). -/
theorem pcBounded_of_step {s t : State} {w : Word} {i : Instr} (hstack : stackBounded s) (hs : s.status = .running)
    (hf : fetch s = .ok w) (hd : decodeWord w = .ok i) (hstep : step s = .next t) (ht : t.status = .running) :
    pcBounded t := by
  have hnear := pcBounded_of_near (t := t) (pc_le_of_fetch hf)
  have hafter := pcAfterAStep s t w i hs hf hd hstep ht
  cases i
  case jp nnn | call nnn =>
    have hn := nnn.isLt
    rw [pcBounded, hafter, BitVec.toNat_setWidth]
    omega
  case jpV0 nnn =>
    have hn := nnn.isLt
    have hb := (s.getV 0).isLt
    rw [pcBounded, hafter]
    refine (toNat_zext16_add_byteAddr nnn (s.getV 0)).trans_le ?_
    omega
  case ret =>
    have haddr := hstack.2 t.pc (List.mem_of_mem_head? hafter)
    exact haddr.trans (by decide)
  case ldVxK =>
    simp only at hafter
    split at hafter
    · exact hnear (.inl hafter)
    · exact hnear (.inr (.inl hafter))
  case seImm | seReg | skp =>
    simp only at hafter
    split at hafter
    · exact hnear (.inr (.inr hafter))
    · exact hnear (.inr (.inl hafter))
  case sneImm | sneReg | sknp =>
    simp only at hafter
    split at hafter
    · exact hnear (.inr (.inl hafter))
    · exact hnear (.inr (.inr hafter))
  all_goals exact hnear (.inr (.inl hafter))

/-- Settles O55: a fault changes the status alone; an instruction that completes keeps each part of the invariant. -/
theorem stepKeepsTheInvariant : Obligations.StepKeepsTheInvariant := by
  intro s t h hstep
  have hs := running_of_step hstep
  obtain ⟨e, w, hfault⟩ | ⟨w, i, hf, hd, hexec⟩ := step_running_cases hs
  · rw [hfault] at hstep
    cases hstep
    exact machineInv_takeFault h e w
  · obtain ⟨hr, rfl⟩ | ⟨e, -, rfl⟩ := exec_cases (hexec.symm.trans hstep)
    · obtain ⟨hmem, -, hstack, -⟩ := h
      have ht : (completed i s).status = .running := (completed_status i s).trans hs
      have hrecord : recordMatches (completed i s) := fun r hr => by rw [ht] at hr; cases hr
      exact ⟨wf_completed hmem hr, pcBounded_of_step hstack hs hf hd hstep ht,
        stackBounded_completed hstack (pc_le_of_fetch hf) hr, hrecord⟩
    · exact machineInv_takeFault h e _

end Sys2Proof.Machine
end

section
/-! PROOFS. Reset, load and sessions (70_reset_and_hazards.md sections 1, 2 and 4), the invariant of reachable states,
and the two kinds of state in which the driver's steps change nothing: halted and final ones. -/

namespace Sys2Proof.Machine

/-! ### Reset -/

/-- In the font's range an unlisted address reads as the default font (20_memory.md R67). -/
theorem Memory.unlisted_font (k : Nat) (h : k < 80) : Memory.unlisted (0x050 + k) = Config.font.getD k 0 := by
  unfold Memory.unlisted
  rw [if_pos (by simp only [Config.fontBase, Config.fontSize]; omega)]
  exact congrArg (Config.font.getD · 0) (Nat.add_sub_cancel_left ..)

/-- The font's bytes after a reset with any font. -/
theorem get_fontMemory_font (font : Font) (k : Nat) (h : k < 80) :
    Memory.get (fontMemory font) (0x050 + k) = font[k] := by
  rw [get_fontMemory, if_pos (by omega), Nat.add_sub_cancel_left, List.getD_eq_getElem _ _ (by simpa using h)]
  rfl

/-- Outside the font every byte is zero after a reset with any font. -/
theorem get_fontMemory_zero (font : Font) (a : Nat) (h : ¬ (0x050 ≤ a ∧ a ≤ 0x09F)) :
    Memory.get (fontMemory font) a = 0 := by
  rw [get_fontMemory, if_neg (by omega)]

/-- Settles O50: reset's fields are literals, and a reset with a font is that state with the font's memory. -/
theorem resetLeavesTheStatedValues : Obligations.ResetLeavesTheStatedValues :=
  ⟨State.getV_reset, rfl, rfl, rfl, rfl, rfl, rfl, fbGet_fbClear, Memory.unlisted_zero, Memory.unlisted_font, rfl,
    resetWith_params,
    fun font => ⟨get_fontMemory_font font, get_fontMemory_zero font, unchanged_setMem State.reset _⟩⟩

/-! ### Sessions -/

/-- The load of an image that fits (10_state.md R47). -/
theorem load_of_fits (image : List Byte) (s : State) (h : image.length ≤ 3584) :
    load image s = (s.setMem (Memory.putBytes s.mem 0x200 image), .ok) :=
  (load_eq image s).trans (if_pos h)

/-- The load of an image that does not fit (10_state.md R47). -/
theorem load_of_too_long (image : List Byte) (s : State) (h : 3584 < image.length) :
    load image s = (s.setStatus (.halted ⟨.outOfRangeAddress, none, none, some 0x1000⟩),
      .fault ⟨.outOfRangeAddress, none, none, some 0x1000⟩) :=
  (load_eq image s).trans (if_neg (Nat.not_le.2 h))

theorem newSessionWith_of_fits (font : Font) (image : List Byte) (h : image.length ≤ 3584) :
    newSessionWith font image = (State.resetWith font).setMem (Memory.putBytes (fontMemory font) 0x200 image) :=
  congrArg Prod.fst (load_of_fits image (State.resetWith font) h)

theorem newSessionWith_of_too_long (font : Font) (image : List Byte) (h : 3584 < image.length) :
    newSessionWith font image =
      (State.resetWith font).setStatus (.halted ⟨.outOfRangeAddress, none, none, some 0x1000⟩) :=
  congrArg Prod.fst (load_of_too_long image (State.resetWith font) h)

/-- Where an image lies, and below and above it, once it is written over the font's memory. -/
theorem get_image_outside (font : Font) (image : List Byte) (a : Nat) (h : ¬ (0x200 ≤ a ∧ a < 0x200 + image.length)) :
    Memory.get (Memory.putBytes (fontMemory font) 0x200 image) a = Memory.get (fontMemory font) a := by
  rw [Memory.get_putBytes, if_neg h]

/-- Program memory holds the image, and zero for the bytes that the image does not have (decision D28). -/
theorem get_image (font : Font) (image : List Byte) (k : Nat) :
    Memory.get (Memory.putBytes (fontMemory font) 0x200 image) (0x200 + k) = image.getD k 0 := by
  by_cases h : k < image.length
  · exact Memory.get_putBytes_add _ _ _ _ h
  · rw [get_image_outside _ _ _ (by omega), get_fontMemory_zero _ _ (by omega),
      List.getD_eq_default _ _ (Nat.not_lt.1 h)]

/-- Settles O51: the two answers of the load, and a block write over the font's memory. -/
theorem sessionStartsWithTheImageLoaded : Obligations.SessionStartsWithTheImageLoaded := by
  refine ⟨fun font image h => ?_, fun font image h => ?_, fun image => (newSessionWith_params image).symm⟩
  · have hload := load_of_fits image (State.resetWith font) h
    refine ⟨Prod.ext rfl (by rw [hload]), ?_⟩
    rw [newSessionWith_of_fits font image h]
    refine ⟨rfl, rfl, fun k _ => get_image font image k, fun k hk => ?_, fun a hfont himage => ?_⟩
    · exact (get_image_outside font image _ (by omega)).trans (get_fontMemory_font font k hk)
    · exact (get_image_outside font image a himage).trans (get_fontMemory_zero font a hfont)
  · have hload := load_of_too_long image (State.resetWith font) h
    exact ⟨Prod.ext rfl (by rw [hload]), newSessionWith_of_too_long font image h⟩

/-- The first fetch of a session whose image fits. -/
theorem fetch_newSessionWith (font : Font) (image : List Byte) (h : image.length ≤ 3584) :
    fetch (newSessionWith font image) = .ok (image.getD 0 0 ++ image.getD 1 0) := by
  have hpc : (0x200 : Addr).toNat + 1 ≤ 4095 := by decide
  rw [newSessionWith_of_fits font image h, fetch_eq]
  refine (if_pos hpc).trans ?_
  exact congrArg Except.ok (congrArg₂ joinBytes (get_image font image 0) (get_image font image 1))

/-- Settles O52: pc is 0x200, where the image is; the empty image leaves reset's memory. -/
theorem firstStepRunsTheImagesFirstWord : Obligations.FirstStepRunsTheImagesFirstWord := by
  refine ⟨fun font image h => ⟨fetch_newSessionWith font image h, fun i hd => ?_⟩, ?_⟩
  · refine step_of_decoded ?_ (fetch_newSessionWith font image h) hd
    rw [newSessionWith_of_fits font image h]
    rfl
  · have hempty : newSession [] = State.reset := rfl
    have hstep : step State.reset = .next (takeFault State.reset .invalidOpcode (some 0x0000)) :=
      step_of_reject (e := .class0) rfl rfl rfl
    rw [hempty, stepCall_of_next hstep]
    rfl

/-! ### Reachable states -/

/-- A session starts in a state that satisfies the invariant, whether its image fits or not. -/
theorem machineInv_newSessionWith (font : Font) (image : List Byte) : MachineInv (newSessionWith font image) := by
  have hpc : (0x200 : Addr).toNat ≤ 0x10FE := by decide
  by_cases h : image.length ≤ 3584
  · rw [newSessionWith_of_fits font image h]
    have hmem := Memory.wf_putBytes _ 0x200 image (wf_fontMemory font) (.inr (by omega))
    exact ⟨hmem, hpc, ⟨Nat.zero_le _, nofun⟩, nofun⟩
  · rw [newSessionWith_of_too_long font image (Nat.not_le.1 h)]
    refine ⟨wf_fontMemory font, hpc, ⟨Nat.zero_le _, nofun⟩, fun r hr => .inr ?_⟩
    cases hr
    rfl

/-- The driver's step, by the status. -/
theorem machineInv_stepCall {s : State} (h : MachineInv s) : MachineInv (stepCall s).1 := by
  cases hs : s.status with
  | running =>
    obtain ⟨t, hstep⟩ := runningStepAlwaysAnswersANextState s hs
    rw [stepCall_of_next hstep]
    exact stepKeepsTheInvariant s t h hstep
  | halted r =>
    rw [stepCall_of_halted hs]
    exact h

theorem machineInv_perform {s : State} (h : MachineInv s) (a : Action) : MachineInv (perform s a) := by
  cases a with
  | step => exact machineInv_stepCall h
  | tick => exact h
  | snapshot => exact h

theorem machineInv_history {s : State} (h : MachineInv s) (as : List Action) : MachineInv (history s as) := by
  induction as generalizing s with
  | nil => exact h
  | cons a as ih => exact ih (machineInv_perform h a)

theorem machineInv_of_reachable {s : State} (h : Reachable s) : MachineInv s := by
  obtain ⟨font, image, as, rfl⟩ := h
  exact machineInv_history (machineInv_newSessionWith font image) as

theorem reachable_history {s : State} (h : Reachable s) (as : List Action) : Reachable (history s as) := by
  obtain ⟨font, image, as', rfl⟩ := h
  exact ⟨font, image, as' ++ as, history_append _ as' as⟩

/-- Settles O56: by induction on the history; an infinite one passes through the ends of finite ones. -/
theorem reachableStatesSatisfyTheInvariant : Obligations.ReachableStatesSatisfyTheInvariant := by
  refine ⟨fun s => machineInv_of_reachable, fun s acts n h => ?_⟩
  rw [run_eq_history]
  exact reachable_history h _

/-- Settles O10: RET pops or underflows; that popped addresses are bounded is the invariant's. -/
theorem retPopsTheReturnAddress : Obligations.RetPopsTheReturnAddress := by
  refine ⟨rfl, fun s a rest h => ⟨_, exec_ret_of_cons h, rfl, rfl, unchanged_setStack_setPc s _ _⟩,
    fun s h => ⟨_, _, exec_ret_of_nil h, rfl, rfl⟩, fun s a rest h hst => ?_⟩
  obtain ⟨-, -, hstack, -⟩ := machineInv_of_reachable h
  exact hstack.2 a (by rw [hst]; exact List.mem_cons_self)

/-! ### States in which the driver's steps change nothing -/

section
variable {P : State → Prop} (hstep : ∀ u, P u → (stepCall u).1 = u) (htick : ∀ u, P u → P (tickTimers u))
include hstep htick

theorem idle_perform {s : State} (h : P s) (a : Action) : P (perform s a) ∧ OnlyTimersMoved s (perform s a) := by
  cases a with
  | step =>
    rw [perform, hstep s h]
    exact ⟨h, OnlyTimersMoved.refl s⟩
  | tick => exact ⟨htick s h, onlyTimersMoved_tickTimers s⟩
  | snapshot => exact ⟨h, OnlyTimersMoved.refl s⟩

/-- From a state whose kind has steps that change nothing, and which ticks keep, any history moves the timers alone. -/
theorem idle_history {s : State} (h : P s) (as : List Action) :
    P (history s as) ∧ OnlyTimersMoved s (history s as) := by
  induction as generalizing s with
  | nil => exact ⟨h, OnlyTimersMoved.refl s⟩
  | cons a as ih =>
    obtain ⟨hP, hmoved⟩ := idle_perform hstep htick h a
    obtain ⟨hP', hmoved'⟩ := ih hP
    exact ⟨hP', hmoved.trans hmoved'⟩

end

/-- Settles O49: halted with a record is kept by ticks, and a step changes nothing. -/
theorem haltedIsSticky : Obligations.HaltedIsSticky := by
  intro s r as h
  obtain ⟨hhalted, hmoved⟩ := idle_history (P := fun u => u.status = .halted r)
    (fun u hu => congrArg Prod.fst (stepCall_of_halted hu)) (fun _ hu => hu) h as
  exact ⟨step_of_halted hhalted, stepCall_of_halted hhalted, hmoved⟩

/-- A final state is Running at a jump to its own address (70_reset_and_hazards.md R274). -/
theorem isFinal_iff (s : State) :
    isFinal s = true ↔ s.status = .running ∧ ∃ nnn, fetch s = .ok (encode (.jp nnn)) ∧ zext16 nnn = s.pc := by
  rw [isFinal, Bool.and_eq_true, beq_iff_eq]
  refine and_congr_right fun _ => ?_
  cases fetch s with
  | error e => exact ⟨nofun, nofun⟩
  | ok w =>
    rw [Bool.and_eq_true, beq_iff_eq, beq_iff_eq]
    constructor
    · rintro ⟨hc, hpc⟩
      exact ⟨fieldNNN w, congrArg Except.ok (packNNN_of_class (c := 0x1) (congrArg BitVec.toNat hc)).symm, hpc⟩
    · rintro ⟨nnn, hw, hpc⟩
      obtain rfl : w = packNNN 0x1 nnn := Except.ok.inj hw
      rw [fieldC_packNNN, fieldNNN_packNNN]
      exact ⟨rfl, hpc⟩

theorem step_of_isFinal {s : State} (h : isFinal s = true) : step s = .next s := by
  obtain ⟨hs, nnn, hf, hpc⟩ := (isFinal_iff s).1 h
  rw [step_of_decoded hs hf (decodeWord_encode (.jp nnn)), exec_jp, hpc]
  rfl

theorem stepCall_of_isFinal {s : State} (h : isFinal s = true) : (stepCall s).1 = s :=
  congrArg Prod.fst (stepCall_of_next (step_of_isFinal h))

/-- Settles O53: a jump to itself is a pc write of pc; ticks keep the state final and bring both timers to 0. -/
theorem finalStateIsAFixedPoint : Obligations.FinalStateIsAFixedPoint := by
  intro s h
  have hhistory : ∀ as, isFinal (history s as) = true ∧ OnlyTimersMoved s (history s as) :=
    idle_history (P := fun u => isFinal u = true) (fun _ => stepCall_of_isFinal) (fun _ hu => hu) h
  refine ⟨step_of_isFinal h, fun as => (hhistory as).symm, fun acts => ?_⟩
  have hrun : ∀ n, OnlyTimersMoved s (run s acts n) ∧ isFinal (run s acts n) = true := fun n => by
    rw [run_eq_history]
    exact (hhistory _).symm
  have hstep : ∀ n, acts n = .step → run s acts (n + 1) = run s acts n := fun n ha => by
    rw [run_succ, ha]
    exact stepCall_of_isFinal (hrun n).2
  refine ⟨hrun, fun hfair => ?_⟩
  obtain ⟨n, hn⟩ := timer_reaches_zero State.DT (fun _ => rfl) s hfair fun n ha => congrArg State.DT (hstep n ha)
  obtain ⟨k, hk⟩ := timer_reaches_zero State.ST (fun _ => rfl) s hfair fun n ha => congrArg State.ST (hstep n ha)
  exact ⟨max n k, fun m hm => ⟨hn m (le_of_max_le_left hm), hk m (le_of_max_le_right hm)⟩⟩

end Sys2Proof.Machine
end
